-- ==== Sys2Proof/Word.lean ====
section
/-! DEFINITION. The word types of the core (00_scope.md R6, R10). -/

namespace Sys2Proof

/-- A register, address, memory word or `pc`: 32 bits (00_scope.md R10). -/
abbrev Word := BitVec 32

/-- A halfword, as `MemRead(addr, 2)` returns it (20_memory.md R56). -/
abbrev Half := BitVec 16

/-- A byte, the smallest addressable unit (20_memory.md R51). -/
abbrev Byte := BitVec 8

/-- A register index field, 0 to 31 (30_encoding.md R81). -/
abbrev RegIdx := BitVec 5

end Sys2Proof
end

