-- ==== Sys2Proof/Syntax.lean ====
section
/-! DEFINITION. The instructions, one constructor per row of spec/opcode_table.json. -/

namespace Sys2Proof

/-- The 40 instructions (00_scope.md R2), operands in the assembler's order (30_encoding.md R106).
An immediate is the field the decoder produces, not yet extended (30_encoding.md R89 to R95): `imm` of
the I and S formats is 12 bits, a branch offset is the 13-bit `imm_B` and a jump offset the 21-bit
`imm_J`, both with bit 0 in place. The operands of `fence`, `ecall` and `ebreak` are the bits the core
ignores (30_encoding.md R97); they are kept so that decoding loses no bit (log 11). -/
inductive Instr where
  | lui    (rd : RegIdx) (imm : BitVec 20)
  | auipc  (rd : RegIdx) (imm : BitVec 20)
  | jal    (rd : RegIdx) (offset : BitVec 21)
  | jalr   (rd rs1 : RegIdx) (imm : BitVec 12)
  | beq    (rs1 rs2 : RegIdx) (offset : BitVec 13)
  | bne    (rs1 rs2 : RegIdx) (offset : BitVec 13)
  | blt    (rs1 rs2 : RegIdx) (offset : BitVec 13)
  | bge    (rs1 rs2 : RegIdx) (offset : BitVec 13)
  | bltu   (rs1 rs2 : RegIdx) (offset : BitVec 13)
  | bgeu   (rs1 rs2 : RegIdx) (offset : BitVec 13)
  | lb     (rd rs1 : RegIdx) (imm : BitVec 12)
  | lh     (rd rs1 : RegIdx) (imm : BitVec 12)
  | lw     (rd rs1 : RegIdx) (imm : BitVec 12)
  | lbu    (rd rs1 : RegIdx) (imm : BitVec 12)
  | lhu    (rd rs1 : RegIdx) (imm : BitVec 12)
  | sb     (rs2 rs1 : RegIdx) (imm : BitVec 12)
  | sh     (rs2 rs1 : RegIdx) (imm : BitVec 12)
  | sw     (rs2 rs1 : RegIdx) (imm : BitVec 12)
  | addi   (rd rs1 : RegIdx) (imm : BitVec 12)
  | slti   (rd rs1 : RegIdx) (imm : BitVec 12)
  | sltiu  (rd rs1 : RegIdx) (imm : BitVec 12)
  | xori   (rd rs1 : RegIdx) (imm : BitVec 12)
  | ori    (rd rs1 : RegIdx) (imm : BitVec 12)
  | andi   (rd rs1 : RegIdx) (imm : BitVec 12)
  | slli   (rd rs1 : RegIdx) (shamt : BitVec 5)
  | srli   (rd rs1 : RegIdx) (shamt : BitVec 5)
  | srai   (rd rs1 : RegIdx) (shamt : BitVec 5)
  | add    (rd rs1 rs2 : RegIdx)
  | sub    (rd rs1 rs2 : RegIdx)
  | sll    (rd rs1 rs2 : RegIdx)
  | slt    (rd rs1 rs2 : RegIdx)
  | sltu   (rd rs1 rs2 : RegIdx)
  | xor    (rd rs1 rs2 : RegIdx)
  | srl    (rd rs1 rs2 : RegIdx)
  | sra    (rd rs1 rs2 : RegIdx)
  | or     (rd rs1 rs2 : RegIdx)
  | and    (rd rs1 rs2 : RegIdx)
  | fence  (rd rs1 : RegIdx) (imm : BitVec 12)
  | ecall  (rd rs1 : RegIdx)
  | ebreak (rd rs1 : RegIdx)
deriving DecidableEq, Repr

end Sys2Proof
end

