-- ==== Sys2Proof/Config.lean ====
section
/-! DEFINITION. The configuration parameters of 00_scope.md R7, fixed for a run. -/

namespace Sys2Proof

/-- What ECALL does (92_eei_decisions.md D13, OPEN). -/
inductive EcallAction where
  | halt | nop
deriving DecidableEq, Repr

/-- How SLTIU extends its immediate (92_eei_decisions.md D7, OPEN). -/
inductive ImmExt where
  | zero | sign
deriving DecidableEq, Repr

/-- What a halfword access at byte offset 3 does (92_eei_decisions.md D12, OPEN). -/
inductive MisalignedSubword where
  | truncate | stuck
deriving DecidableEq, Repr

/-- The parameters of 00_scope.md R7. State holds them and no step changes them (10_state.md R29), so a
statement about every state is a statement about every configuration. `TRACE_FORMAT`, a function, is
`Config.traceOperands`. -/
structure Config where
  /-- `MEM_WORDS`, the memory capacity in 32-bit words. -/
  memWords : Nat
  /-- `MEM_FILL`, what a memory word holds until written. -/
  memFill : Word
  /-- `REG_FILL`, what x1 to x31 hold until written. -/
  regFill : Word
  /-- `START_ADDR`, the reset pc and image load address. -/
  startAddr : Word
  /-- `IMAGE`, the program image, word `i` at word index `START_ADDR / 4 + i`. -/
  image : List Word
  /-- `STEP_MODE_INIT`, whether step mode is on at start. -/
  stepModeInit : Bool
  /-- `DEBUG_LOG`, the debug-logging toggle. -/
  debugLog : Bool
  /-- `ECALL_ACTION`. -/
  ecallAction : EcallAction
  /-- `MISS_HALT_LIMIT`, 0 means never. -/
  missHaltLimit : Nat
  /-- `JALR_CLEARS_BIT0`. -/
  jalrClearsBit0 : Bool
  /-- `SLTIU_IMM_EXT`. -/
  sltiuImmExt : ImmExt
  /-- `MISALIGNED_SUBWORD`. -/
  misalignedSubword : MisalignedSubword
  /-- `EXIT_STATUS_ECALL`, outside the core (92_eei_decisions.md D30). -/
  exitStatusEcall : Int
deriving DecidableEq, Repr

/-- The ranges of 00_scope.md R7: `1 ≤ MEM_WORDS ≤ 2^30`, `START_ADDR` a multiple of 4 inside the memory
(92_eei_decisions.md D18). Any other configuration is refused. -/
def Config.valid (c : Config) : Bool :=
  decide (1 ≤ c.memWords) && decide (c.memWords ≤ 2 ^ 30)
    && decide (c.startAddr.toNat % 4 = 0) && decide (c.startAddr.toNat / 4 < c.memWords)

/-- The capacity check of 70_reset_and_hazards.md R253 (92_eei_decisions.md D18). -/
def Config.imageFits (c : Config) : Bool :=
  decide (c.startAddr.toNat / 4 + c.image.length ≤ c.memWords)

/-- The configuration `State.reset` starts from.
The policies take the spec's defaults (00_scope.md R7; log 3).
DESIGN CHOICE (log 1): `MEM_WORDS` is the largest the range allows, so every 32-bit address exists. Unsafe.
DESIGN CHOICE (log 2): fills 0, start address 0, no image, step mode and debug log off. Unsafe. -/
def Config.atReset : Config where
  memWords := 2 ^ 30
  memFill := 0#32
  regFill := 0#32
  startAddr := 0#32
  image := []
  stepModeInit := false
  debugLog := false
  ecallAction := .halt
  missHaltLimit := 0
  jalrClearsBit0 := true
  sltiuImmExt := .zero
  misalignedSubword := .truncate
  exitStatusEcall := 0

/-- `TRACE_FORMAT`: the operand text of the trace string of a decoded instruction, which the source does
not give (60_exceptions.md R238, 92_eei_decisions.md D22, OPEN). No value of it can be proved (log 10). -/
opaque Config.traceOperands : Instr → String

end Sys2Proof
end

