-- ==== Sys2Proof/Decode.lean ====
section
/-! DEFINITION. The instruction decoder and dispatch multiplexer (30_encoding.md R80 to R105), and the
encoder written from the same tables. -/

namespace Sys2Proof

/-- The 40 operations, the dispatch table's entries (00_scope.md R2, 30_encoding.md R99). -/
inductive Op where
  | lui | auipc | jal | jalr
  | beq | bne | blt | bge | bltu | bgeu
  | lb | lh | lw | lbu | lhu | sb | sh | sw
  | addi | slti | sltiu | xori | ori | andi | slli | srli | srai
  | add | sub | sll | slt | sltu | xor | srl | sra | or | and
  | fence | ecall | ebreak
deriving DecidableEq, Repr

/-- The six instruction formats (30_encoding.md R83 to R88). -/
inductive Format where
  | R | I | S | SB | U | UJ
deriving DecidableEq, Repr

/-- The 11 major opcode groups (30_encoding.md R82). -/
inductive Major where
  | load | miscMem | opImm | auipc | store | op | lui | branch | jalr | jal | system
deriving DecidableEq, Repr

/-- The dispatch key, every field the opcode does not discriminate on set to 0 (30_encoding.md R98). -/
structure Key where
  opcode : BitVec 7
  funct3 : BitVec 3
  funct7 : BitVec 7
  funct12 : BitVec 12
deriving DecidableEq, Repr

/-- What `InstructionNotFound` records: the raw bit fields of the word (60_exceptions.md R221). -/
structure MissInfo where
  opcode : BitVec 7
  funct3 : BitVec 3
  funct7 : BitVec 7
  funct12 : BitVec 12
deriving DecidableEq, Repr

/-- The fields and immediates the decoder produces for every word (00_scope.md R8, 30_encoding.md R81). -/
structure Fields where
  opcode : BitVec 7
  rd : RegIdx
  funct3 : BitVec 3
  rs1 : RegIdx
  rs2 : RegIdx
  funct7 : BitVec 7
  funct12 : BitVec 12
  immI : BitVec 12
  immS : BitVec 12
  immB : BitVec 13
  immU : BitVec 20
  immJ : BitVec 21
  format : Option Format
deriving DecidableEq, Repr

/-- What decoding and dispatch answer: an instruction, or a miss, by name. -/
inductive Decoded where
  | hit (i : Instr)
  | instructionNotFound (info : MissInfo)
deriving DecidableEq, Repr

/-! ## Fields and immediates -/

/-- `v[hi:lo]` with `n = hi - lo + 1` bits (00_scope.md R10). -/
abbrev bits {w : Nat} (v : BitVec w) (lo n : Nat) : BitVec n := v.extractLsb' lo n

/-- The opcode numbers of 30_encoding.md R82. -/
def Major.opcode : Major → BitVec 7
  | .load    => 0b0000011#7
  | .miscMem => 0b0001111#7
  | .opImm   => 0b0010011#7
  | .auipc   => 0b0010111#7
  | .store   => 0b0100011#7
  | .op      => 0b0110011#7
  | .lui     => 0b0110111#7
  | .branch  => 0b1100011#7
  | .jalr    => 0b1100111#7
  | .jal     => 0b1101111#7
  | .system  => 0b1110011#7

/-- The format of each major opcode (30_encoding.md R82). -/
def Major.format : Major → Format
  | .op => .R
  | .load | .miscMem | .opImm | .jalr | .system => .I
  | .store => .S
  | .branch => .SB
  | .auipc | .lui => .U
  | .jal => .UJ

/-- The 11 entries of the opcode table (30_encoding.md R82). -/
def Major.all : List Major :=
  [.load, .miscMem, .opImm, .auipc, .store, .op, .lui, .branch, .jalr, .jal, .system]

/-- The major group of an opcode; none for every other opcode value (30_encoding.md R82). -/
def majorOf (opcode : BitVec 7) : Option Major :=
  Major.all.find? fun m => decide (m.opcode = opcode)

/-- The branch immediate (30_encoding.md R91). -/
def immBOf (w : Word) : BitVec 13 := bits w 31 1 ++ bits w 7 1 ++ bits w 25 6 ++ bits w 8 4 ++ 0#1

/-- The jump immediate (30_encoding.md R93). -/
def immJOf (w : Word) : BitVec 21 := bits w 31 1 ++ bits w 12 8 ++ bits w 20 1 ++ bits w 21 10 ++ 0#1

/-- The decoder: every word has fields and immediates (30_encoding.md R81, R89 to R94, R96). -/
def Fields.ofWord (w : Word) : Fields where
  opcode := bits w 0 7
  rd := bits w 7 5
  funct3 := bits w 12 3
  rs1 := bits w 15 5
  rs2 := bits w 20 5
  funct7 := bits w 25 7
  funct12 := bits w 20 12
  immI := bits w 20 12
  immS := bits w 25 7 ++ bits w 7 5
  immB := immBOf w
  immU := bits w 12 20
  immJ := immJOf w
  format := (majorOf (bits w 0 7)).map Major.format

/-! ## Dispatch -/

/-- Which of funct3, funct7, funct12 the opcode discriminates on (30_encoding.md R98). -/
def Major.key (m : Major) (funct3 : BitVec 3) (funct7 : BitVec 7) (funct12 : BitVec 12) : Key :=
  match m with
  | .lui | .auipc | .jal => ⟨m.opcode, 0#3, 0#7, 0#12⟩
  | .jalr | .branch | .load | .store | .miscMem => ⟨m.opcode, funct3, 0#7, 0#12⟩
  | .opImm =>
    if funct3 = 0b001#3 ∨ funct3 = 0b101#3 then ⟨m.opcode, funct3, funct7, 0#12⟩
    else ⟨m.opcode, funct3, 0#7, 0#12⟩
  | .op => ⟨m.opcode, funct3, funct7, 0#12⟩
  | .system => ⟨m.opcode, funct3, 0#7, funct12⟩

/-- The dispatch table (30_encoding.md R99). -/
def Op.key : Op → Key
  | .lui    => ⟨0x37#7, 0#3, 0#7, 0#12⟩
  | .auipc  => ⟨0x17#7, 0#3, 0#7, 0#12⟩
  | .jal    => ⟨0x6F#7, 0#3, 0#7, 0#12⟩
  | .jalr   => ⟨0x67#7, 0b000#3, 0#7, 0#12⟩
  | .beq    => ⟨0x63#7, 0b000#3, 0#7, 0#12⟩
  | .bne    => ⟨0x63#7, 0b001#3, 0#7, 0#12⟩
  | .blt    => ⟨0x63#7, 0b100#3, 0#7, 0#12⟩
  | .bge    => ⟨0x63#7, 0b101#3, 0#7, 0#12⟩
  | .bltu   => ⟨0x63#7, 0b110#3, 0#7, 0#12⟩
  | .bgeu   => ⟨0x63#7, 0b111#3, 0#7, 0#12⟩
  | .lb     => ⟨0x03#7, 0b000#3, 0#7, 0#12⟩
  | .lh     => ⟨0x03#7, 0b001#3, 0#7, 0#12⟩
  | .lw     => ⟨0x03#7, 0b010#3, 0#7, 0#12⟩
  | .lbu    => ⟨0x03#7, 0b100#3, 0#7, 0#12⟩
  | .lhu    => ⟨0x03#7, 0b101#3, 0#7, 0#12⟩
  | .sb     => ⟨0x23#7, 0b000#3, 0#7, 0#12⟩
  | .sh     => ⟨0x23#7, 0b001#3, 0#7, 0#12⟩
  | .sw     => ⟨0x23#7, 0b010#3, 0#7, 0#12⟩
  | .addi   => ⟨0x13#7, 0b000#3, 0#7, 0#12⟩
  | .slti   => ⟨0x13#7, 0b010#3, 0#7, 0#12⟩
  | .sltiu  => ⟨0x13#7, 0b011#3, 0#7, 0#12⟩
  | .xori   => ⟨0x13#7, 0b100#3, 0#7, 0#12⟩
  | .ori    => ⟨0x13#7, 0b110#3, 0#7, 0#12⟩
  | .andi   => ⟨0x13#7, 0b111#3, 0#7, 0#12⟩
  | .slli   => ⟨0x13#7, 0b001#3, 0b0000000#7, 0#12⟩
  | .srli   => ⟨0x13#7, 0b101#3, 0b0000000#7, 0#12⟩
  | .srai   => ⟨0x13#7, 0b101#3, 0b0100000#7, 0#12⟩
  | .add    => ⟨0x33#7, 0b000#3, 0b0000000#7, 0#12⟩
  | .sub    => ⟨0x33#7, 0b000#3, 0b0100000#7, 0#12⟩
  | .sll    => ⟨0x33#7, 0b001#3, 0b0000000#7, 0#12⟩
  | .slt    => ⟨0x33#7, 0b010#3, 0b0000000#7, 0#12⟩
  | .sltu   => ⟨0x33#7, 0b011#3, 0b0000000#7, 0#12⟩
  | .xor    => ⟨0x33#7, 0b100#3, 0b0000000#7, 0#12⟩
  | .srl    => ⟨0x33#7, 0b101#3, 0b0000000#7, 0#12⟩
  | .sra    => ⟨0x33#7, 0b101#3, 0b0100000#7, 0#12⟩
  | .or     => ⟨0x33#7, 0b110#3, 0b0000000#7, 0#12⟩
  | .and    => ⟨0x33#7, 0b111#3, 0b0000000#7, 0#12⟩
  | .fence  => ⟨0x0F#7, 0b000#3, 0#7, 0#12⟩
  | .ecall  => ⟨0x73#7, 0b000#3, 0#7, 0x000#12⟩
  | .ebreak => ⟨0x73#7, 0b000#3, 0#7, 0x001#12⟩

/-- Every entry of the dispatch table (30_encoding.md R99). -/
def Op.all : List Op :=
  [.lui, .auipc, .jal, .jalr, .beq, .bne, .blt, .bge, .bltu, .bgeu, .lb, .lh, .lw, .lbu, .lhu, .sb, .sh, .sw,
    .addi, .slti, .sltiu, .xori, .ori, .andi, .slli, .srli, .srai,
    .add, .sub, .sll, .slt, .sltu, .xor, .srl, .sra, .or, .and, .fence, .ecall, .ebreak]

/-- Lookup by exact equality of the key (30_encoding.md R100). -/
def dispatch (k : Key) : Option Op := Op.all.find? fun o => decide (o.key = k)

/-- The key of a word with these fields; none where the opcode has no group (30_encoding.md R98). -/
def Fields.key (f : Fields) : Option Key :=
  (majorOf f.opcode).map fun m => m.key f.funct3 f.funct7 f.funct12

/-- The raw fields a miss records (60_exceptions.md R221, 92_eei_decisions.md D27). -/
def Fields.missInfo (f : Fields) : MissInfo := ⟨f.opcode, f.funct3, f.funct7, f.funct12⟩

/-- The operation with the operands its format extracts (30_encoding.md R83 to R88, R95). -/
def Fields.instr (f : Fields) : Op → Instr
  | .lui    => .lui f.rd f.immU
  | .auipc  => .auipc f.rd f.immU
  | .jal    => .jal f.rd f.immJ
  | .jalr   => .jalr f.rd f.rs1 f.immI
  | .beq    => .beq f.rs1 f.rs2 f.immB
  | .bne    => .bne f.rs1 f.rs2 f.immB
  | .blt    => .blt f.rs1 f.rs2 f.immB
  | .bge    => .bge f.rs1 f.rs2 f.immB
  | .bltu   => .bltu f.rs1 f.rs2 f.immB
  | .bgeu   => .bgeu f.rs1 f.rs2 f.immB
  | .lb     => .lb f.rd f.rs1 f.immI
  | .lh     => .lh f.rd f.rs1 f.immI
  | .lw     => .lw f.rd f.rs1 f.immI
  | .lbu    => .lbu f.rd f.rs1 f.immI
  | .lhu    => .lhu f.rd f.rs1 f.immI
  | .sb     => .sb f.rs2 f.rs1 f.immS
  | .sh     => .sh f.rs2 f.rs1 f.immS
  | .sw     => .sw f.rs2 f.rs1 f.immS
  | .addi   => .addi f.rd f.rs1 f.immI
  | .slti   => .slti f.rd f.rs1 f.immI
  | .sltiu  => .sltiu f.rd f.rs1 f.immI
  | .xori   => .xori f.rd f.rs1 f.immI
  | .ori    => .ori f.rd f.rs1 f.immI
  | .andi   => .andi f.rd f.rs1 f.immI
  | .slli   => .slli f.rd f.rs1 (bits f.immI 0 5)
  | .srli   => .srli f.rd f.rs1 (bits f.immI 0 5)
  | .srai   => .srai f.rd f.rs1 (bits f.immI 0 5)
  | .add    => .add f.rd f.rs1 f.rs2
  | .sub    => .sub f.rd f.rs1 f.rs2
  | .sll    => .sll f.rd f.rs1 f.rs2
  | .slt    => .slt f.rd f.rs1 f.rs2
  | .sltu   => .sltu f.rd f.rs1 f.rs2
  | .xor    => .xor f.rd f.rs1 f.rs2
  | .srl    => .srl f.rd f.rs1 f.rs2
  | .sra    => .sra f.rd f.rs1 f.rs2
  | .or     => .or f.rd f.rs1 f.rs2
  | .and    => .and f.rd f.rs1 f.rs2
  | .fence  => .fence f.rd f.rs1 f.immI
  | .ecall  => .ecall f.rd f.rs1
  | .ebreak => .ebreak f.rd f.rs1

/-- Decode and dispatch one word: total, a miss carries the offending fields (30_encoding.md R96, R100, R104). -/
def decode (w : Word) : Decoded :=
  match (Fields.ofWord w).key.bind dispatch with
  | some o => .hit ((Fields.ofWord w).instr o)
  | none => .instructionNotFound (Fields.ofWord w).missInfo

/-- Four bytes as one word, the first at the lowest address and least significant (20_memory.md R54, R57). -/
def wordOfBytes (b0 b1 b2 b3 : Byte) : Word := b3 ++ b2 ++ b1 ++ b0

/-- Decode four bytes as memory holds them (30_encoding.md R80). -/
def decodeBytes (b0 b1 b2 b3 : Byte) : Decoded := decode (wordOfBytes b0 b1 b2 b3)

/-- The instruction the decoder reads from the table's numbering of an instruction's bits: the bits at and
above `nbits` are zero, the bytes are laid out lowest first (20_memory.md R54). -/
def decodeTableWord (nbits w : Nat) : Option Instr :=
  let v : Word := BitVec.ofNat 32 (w % 2 ^ nbits)
  match decodeBytes (bits v 0 8) (bits v 8 8) (bits v 16 8) (bits v 24 8) with
  | .hit i => some i
  | .instructionNotFound _ => none

/-! ## The table's second presentation: match and mask (30_encoding.md R100, spec/opcode_table.json) -/

/-- The bits of a word that select the operation (spec/opcode_table.json, "mask"). -/
def Op.maskWord : Op → Word
  | .lui => 0x0000007F#32
  | .auipc => 0x0000007F#32
  | .jal => 0x0000007F#32
  | .jalr => 0x0000707F#32
  | .beq => 0x0000707F#32
  | .bne => 0x0000707F#32
  | .blt => 0x0000707F#32
  | .bge => 0x0000707F#32
  | .bltu => 0x0000707F#32
  | .bgeu => 0x0000707F#32
  | .lb => 0x0000707F#32
  | .lh => 0x0000707F#32
  | .lw => 0x0000707F#32
  | .lbu => 0x0000707F#32
  | .lhu => 0x0000707F#32
  | .sb => 0x0000707F#32
  | .sh => 0x0000707F#32
  | .sw => 0x0000707F#32
  | .addi => 0x0000707F#32
  | .slti => 0x0000707F#32
  | .sltiu => 0x0000707F#32
  | .xori => 0x0000707F#32
  | .ori => 0x0000707F#32
  | .andi => 0x0000707F#32
  | .slli => 0xFE00707F#32
  | .srli => 0xFE00707F#32
  | .srai => 0xFE00707F#32
  | .add => 0xFE00707F#32
  | .sub => 0xFE00707F#32
  | .sll => 0xFE00707F#32
  | .slt => 0xFE00707F#32
  | .sltu => 0xFE00707F#32
  | .xor => 0xFE00707F#32
  | .srl => 0xFE00707F#32
  | .sra => 0xFE00707F#32
  | .or => 0xFE00707F#32
  | .and => 0xFE00707F#32
  | .fence => 0x0000707F#32
  | .ecall => 0xFFF0707F#32
  | .ebreak => 0xFFF0707F#32

/-- The value of those bits (spec/opcode_table.json, "match"). -/
def Op.matchWord : Op → Word
  | .lui => 0x00000037#32
  | .auipc => 0x00000017#32
  | .jal => 0x0000006F#32
  | .jalr => 0x00000067#32
  | .beq => 0x00000063#32
  | .bne => 0x00001063#32
  | .blt => 0x00004063#32
  | .bge => 0x00005063#32
  | .bltu => 0x00006063#32
  | .bgeu => 0x00007063#32
  | .lb => 0x00000003#32
  | .lh => 0x00001003#32
  | .lw => 0x00002003#32
  | .lbu => 0x00004003#32
  | .lhu => 0x00005003#32
  | .sb => 0x00000023#32
  | .sh => 0x00001023#32
  | .sw => 0x00002023#32
  | .addi => 0x00000013#32
  | .slti => 0x00002013#32
  | .sltiu => 0x00003013#32
  | .xori => 0x00004013#32
  | .ori => 0x00006013#32
  | .andi => 0x00007013#32
  | .slli => 0x00001013#32
  | .srli => 0x00005013#32
  | .srai => 0x40005013#32
  | .add => 0x00000033#32
  | .sub => 0x40000033#32
  | .sll => 0x00001033#32
  | .slt => 0x00002033#32
  | .sltu => 0x00003033#32
  | .xor => 0x00004033#32
  | .srl => 0x00005033#32
  | .sra => 0x40005033#32
  | .or => 0x00006033#32
  | .and => 0x00007033#32
  | .fence => 0x0000000F#32
  | .ecall => 0x00000073#32
  | .ebreak => 0x00100073#32

/-- Whether a word's key bits are those of an operation (30_encoding.md R100). -/
def Op.matches (o : Op) (w : Word) : Bool := decide (w &&& o.maskWord = o.matchWord)

/-! ## The operation of an instruction -/

/-- The dispatch-table entry an instruction came from. -/
def Instr.op : Instr → Op
  | .lui .. => .lui | .auipc .. => .auipc | .jal .. => .jal | .jalr .. => .jalr
  | .beq .. => .beq | .bne .. => .bne | .blt .. => .blt | .bge .. => .bge
  | .bltu .. => .bltu | .bgeu .. => .bgeu
  | .lb .. => .lb | .lh .. => .lh | .lw .. => .lw | .lbu .. => .lbu | .lhu .. => .lhu
  | .sb .. => .sb | .sh .. => .sh | .sw .. => .sw
  | .addi .. => .addi | .slti .. => .slti | .sltiu .. => .sltiu | .xori .. => .xori
  | .ori .. => .ori | .andi .. => .andi | .slli .. => .slli | .srli .. => .srli | .srai .. => .srai
  | .add .. => .add | .sub .. => .sub | .sll .. => .sll | .slt .. => .slt | .sltu .. => .sltu
  | .xor .. => .xor | .srl .. => .srl | .sra .. => .sra | .or .. => .or | .and .. => .and
  | .fence .. => .fence | .ecall .. => .ecall | .ebreak .. => .ebreak

/-- The upper-case mnemonic of a dispatch-table entry (30_encoding.md R99, 60_exceptions.md R238). -/
def Op.mnemonic : Op → String
  | .lui => "LUI" | .auipc => "AUIPC" | .jal => "JAL" | .jalr => "JALR"
  | .beq => "BEQ" | .bne => "BNE" | .blt => "BLT" | .bge => "BGE" | .bltu => "BLTU" | .bgeu => "BGEU"
  | .lb => "LB" | .lh => "LH" | .lw => "LW" | .lbu => "LBU" | .lhu => "LHU"
  | .sb => "SB" | .sh => "SH" | .sw => "SW"
  | .addi => "ADDI" | .slti => "SLTI" | .sltiu => "SLTIU" | .xori => "XORI" | .ori => "ORI" | .andi => "ANDI"
  | .slli => "SLLI" | .srli => "SRLI" | .srai => "SRAI"
  | .add => "ADD" | .sub => "SUB" | .sll => "SLL" | .slt => "SLT" | .sltu => "SLTU"
  | .xor => "XOR" | .srl => "SRL" | .sra => "SRA" | .or => "OR" | .and => "AND"
  | .fence => "FENCE" | .ecall => "ECALL" | .ebreak => "EBREAK"

/-! ## The encoder -/

/-- R format (30_encoding.md R83); with `rs2` the shift amount it is also the shift-immediate form (R84). -/
def encodeR (k : Key) (rs2 rs1 rd : BitVec 5) : Word :=
  k.funct7 ++ rs2 ++ rs1 ++ k.funct3 ++ rd ++ k.opcode

/-- I format (30_encoding.md R84). -/
def encodeI (k : Key) (imm : BitVec 12) (rs1 rd : RegIdx) : Word :=
  imm ++ rs1 ++ k.funct3 ++ rd ++ k.opcode

/-- S format (30_encoding.md R85). -/
def encodeS (k : Key) (imm : BitVec 12) (rs2 rs1 : RegIdx) : Word :=
  bits imm 5 7 ++ rs2 ++ rs1 ++ k.funct3 ++ bits imm 0 5 ++ k.opcode

/-- SB format (30_encoding.md R86). -/
def encodeSB (k : Key) (offset : BitVec 13) (rs2 rs1 : RegIdx) : Word :=
  bits offset 12 1 ++ bits offset 5 6 ++ rs2 ++ rs1 ++ k.funct3 ++ bits offset 1 4 ++ bits offset 11 1
    ++ k.opcode

/-- U format (30_encoding.md R87). -/
def encodeU (k : Key) (imm : BitVec 20) (rd : RegIdx) : Word := imm ++ rd ++ k.opcode

/-- UJ format (30_encoding.md R88). -/
def encodeUJ (k : Key) (offset : BitVec 21) (rd : RegIdx) : Word :=
  bits offset 20 1 ++ bits offset 1 10 ++ bits offset 11 1 ++ bits offset 12 8 ++ rd ++ k.opcode

/-- The word of a well-formed instruction (30_encoding.md R83 to R88, R99). -/
def encode : Instr → Word
  | .lui rd imm         => encodeU Op.lui.key imm rd
  | .auipc rd imm       => encodeU Op.auipc.key imm rd
  | .jal rd offset      => encodeUJ Op.jal.key offset rd
  | .jalr rd rs1 imm    => encodeI Op.jalr.key imm rs1 rd
  | .beq rs1 rs2 off    => encodeSB Op.beq.key off rs2 rs1
  | .bne rs1 rs2 off    => encodeSB Op.bne.key off rs2 rs1
  | .blt rs1 rs2 off    => encodeSB Op.blt.key off rs2 rs1
  | .bge rs1 rs2 off    => encodeSB Op.bge.key off rs2 rs1
  | .bltu rs1 rs2 off   => encodeSB Op.bltu.key off rs2 rs1
  | .bgeu rs1 rs2 off   => encodeSB Op.bgeu.key off rs2 rs1
  | .lb rd rs1 imm      => encodeI Op.lb.key imm rs1 rd
  | .lh rd rs1 imm      => encodeI Op.lh.key imm rs1 rd
  | .lw rd rs1 imm      => encodeI Op.lw.key imm rs1 rd
  | .lbu rd rs1 imm     => encodeI Op.lbu.key imm rs1 rd
  | .lhu rd rs1 imm     => encodeI Op.lhu.key imm rs1 rd
  | .sb rs2 rs1 imm     => encodeS Op.sb.key imm rs2 rs1
  | .sh rs2 rs1 imm     => encodeS Op.sh.key imm rs2 rs1
  | .sw rs2 rs1 imm     => encodeS Op.sw.key imm rs2 rs1
  | .addi rd rs1 imm    => encodeI Op.addi.key imm rs1 rd
  | .slti rd rs1 imm    => encodeI Op.slti.key imm rs1 rd
  | .sltiu rd rs1 imm   => encodeI Op.sltiu.key imm rs1 rd
  | .xori rd rs1 imm    => encodeI Op.xori.key imm rs1 rd
  | .ori rd rs1 imm     => encodeI Op.ori.key imm rs1 rd
  | .andi rd rs1 imm    => encodeI Op.andi.key imm rs1 rd
  | .slli rd rs1 shamt  => encodeR Op.slli.key shamt rs1 rd
  | .srli rd rs1 shamt  => encodeR Op.srli.key shamt rs1 rd
  | .srai rd rs1 shamt  => encodeR Op.srai.key shamt rs1 rd
  | .add rd rs1 rs2     => encodeR Op.add.key rs2 rs1 rd
  | .sub rd rs1 rs2     => encodeR Op.sub.key rs2 rs1 rd
  | .sll rd rs1 rs2     => encodeR Op.sll.key rs2 rs1 rd
  | .slt rd rs1 rs2     => encodeR Op.slt.key rs2 rs1 rd
  | .sltu rd rs1 rs2    => encodeR Op.sltu.key rs2 rs1 rd
  | .xor rd rs1 rs2     => encodeR Op.xor.key rs2 rs1 rd
  | .srl rd rs1 rs2     => encodeR Op.srl.key rs2 rs1 rd
  | .sra rd rs1 rs2     => encodeR Op.sra.key rs2 rs1 rd
  | .or rd rs1 rs2      => encodeR Op.or.key rs2 rs1 rd
  | .and rd rs1 rs2     => encodeR Op.and.key rs2 rs1 rd
  | .fence rd rs1 imm   => encodeI Op.fence.key imm rs1 rd
  | .ecall rd rs1       => encodeI Op.ecall.key Op.ecall.key.funct12 rs1 rd
  | .ebreak rd rs1      => encodeI Op.ebreak.key Op.ebreak.key.funct12 rs1 rd

end Sys2Proof
end

