-- ==== Sys2Proof/Machine/State.lean ====
section
/-! DEFINITION. The state of the core, the reasons a step can stop, and the state after reset. -/

namespace Sys2Proof.Machine

/-- Memory: the bytes that differ from the fill, as (byte address, byte) in strictly rising address order.
The spec's array of words (20_memory.md R51) seen byte by byte (R54); see `Memory.wf` and log 4. -/
abbrev Memory := List Host.Cell

/-- Why the core halted (10_state.md R26). -/
inductive HaltReason where
  | outOfBoundsFetch | ecall | missLimit | exit
deriving DecidableEq, Repr

/-- The run state (10_state.md R26). -/
inductive RunState where
  | running
  | halted (reason : HaltReason)
deriving DecidableEq, Repr

/-- The conditions a running core raises, with the info each records (60_exceptions.md R220).
`ImageTooLarge` is raised before a core exists, so it is `Refusal.imageTooLarge`. -/
inductive Condition where
  | instructionNotFound (info : MissInfo)
  | outOfBoundsFetch (pc : Word)
  | malformedCommand (text : String)
deriving DecidableEq, Repr

/-- The host's closed command set (60_exceptions.md R232 to R237); any other text is `malformed`. -/
inductive HostCommand where
  | step
  | continue
  | reset
  | exit
  | dump (count : Nat) (addr : Word)
  | malformed (text : String)
deriving DecidableEq, Repr

/-- Why a step has no successor state. -/
inductive Fault where
  /-- Raised by the step of a suspended core with no host command to take: the spec calls this stuck
  (10_state.md R27, 93_implementation_defined.md item 17). Safe (log 6). -/
  | suspendedNoCommand
  /-- Raised by LH, LHU and SH, for an in-range access at byte offset 3 of a word under
  `MISALIGNED_SUBWORD = STUCK`: no step (20_memory.md R56, R61). Safe. -/
  | halfwordStuck
deriving DecidableEq, Repr

/-- Why the model has no run, or no meaning. -/
inductive Refusal where
  /-- Raised by an arm of `exec` whose instruction has no meaning yet; no arm is left. Safe. -/
  | notModelled (mnemonic : String)
  /-- Raised by `powerOn` for a configuration outside its ranges (00_scope.md R7). Safe. -/
  | configurationOutOfRange
  /-- Raised by `powerOn`: the condition `ImageTooLarge` (70_reset_and_hazards.md R253). Safe. -/
  | imageTooLarge
  /-- Raised by `imageOfFile` for a file whose length is not a multiple of 4
  (93_implementation_defined.md item 13). Safe. -/
  | imageFileLength
deriving DecidableEq, Repr

/-- Everything the spec gives the machine (00_scope.md R4), with its outputs and the host's commands to come. -/
structure State where
  /-- x0 to x31 (10_state.md R20). Slot 0 is never read (R21). -/
  regs : Vector Word 32
  /-- The program counter, a byte address (10_state.md R25). -/
  pc : Word
  /-- The memory (20_memory.md R51). -/
  mem : Memory
  /-- Running or halted (10_state.md R26). -/
  runState : RunState
  /-- The step controller's suspended mode (10_state.md R27, R29). -/
  stepMode : Bool
  /-- Consecutive dispatch misses (10_state.md R29). -/
  missCount : Nat
  /-- Whether this step's instruction set `pc` itself; live only inside a step (10_state.md R33, R36). -/
  redirect : Bool
  /-- The debug-logging toggle; no architectural effect (10_state.md R29). -/
  debugLog : Bool
  /-- The configuration, read-only during a run (00_scope.md R7, 10_state.md R29). -/
  cfg : Config
  /-- The host's commands still to come, first first (60_exceptions.md R232). The model's own field (log 7). -/
  hostQueue : List HostCommand
  /-- The executed instructions, one trace string each, oldest first (60_exceptions.md R238, log 10). -/
  traceOut : List Instr
  /-- The conditions raised, oldest first (60_exceptions.md R220, log 13). -/
  raised : List Condition
  /-- The words each memory dump gave the host, oldest first (60_exceptions.md R237, log 13). -/
  dumpOut : List (List Word)
deriving DecidableEq, Repr

/-- The machine right after reset, under `Config.atReset` (10_state.md R37). The parameters' values there are
named in log 1, 2 and 3; `powerOn` gives the state for every configuration. -/
def State.reset : State where
  regs := (Vector.replicate 32 Config.atReset.regFill).set 0 0#32
  pc := Config.atReset.startAddr
  mem := []
  runState := .running
  stepMode := Config.atReset.stepModeInit
  missCount := 0
  redirect := false
  debugLog := Config.atReset.debugLog
  cfg := Config.atReset
  hostQueue := []
  traceOut := []
  raised := []
  dumpOut := []

end Sys2Proof.Machine
end

