-- ==== Sys2Proof/Machine/Ops.lean ====
section
/-! DEFINITION. The named operations over registers, pc, memory and control state. The core has no trap
entry and no trap return (60_exceptions.md R228, R229): what it has instead, raising a condition, halting
and the miss policy, stands here once. -/

namespace Sys2Proof.Machine

/-! ## Registers (10_state.md R20 to R23) -/

/-- `x[i]` (10_state.md R21). -/
def State.readReg (s : State) (i : RegIdx) : Word :=
  if i = 0#5 then 0#32 else s.regs[i.toNat]'i.isLt

/-- `x[i] <- v` (10_state.md R21): a write to x0 has no effect. -/
def State.writeReg (s : State) (i : RegIdx) (v : Word) : State :=
  if i = 0#5 then s else { s with regs := s.regs.set i.toNat v i.isLt }

/-- The register file with x1 to x31 at the fill and x0 zero (10_state.md R23). -/
def filledRegs (fill : Word) : Vector Word 32 := (Vector.replicate 32 fill).set 0 0#32

/-! ## Program counter (10_state.md R25, R32, R33) -/

/-- `pc <- target`, done by an instruction: it sets `redirect` (00_scope.md R13, 10_state.md R33). -/
def State.jump (s : State) (target : Word) : State := { s with pc := target, redirect := true }

/-- The pc incrementer, modulo 2^32 (10_state.md R32, R35). -/
def State.advance (s : State) : State := { s with pc := s.pc + 4#32 }

/-! ## Byte order (20_memory.md R51, R54) -/

/-- The word index of a byte address (20_memory.md R51). -/
def wordIndex (a : Word) : Nat := a.toNat / 4

/-- The byte lane of a byte address (20_memory.md R51). -/
def lane (a : Word) : Nat := a.toNat % 4

/-- Byte lane `k` of a word: bits `8k+7 .. 8k` (20_memory.md R54). -/
def byteLane (w : Word) (k : Nat) : Byte := bits w (8 * k) 8

/-! ## Memory as cells (log 4) -/

/-- What the byte at an address no cell lists holds: its lane of `MEM_FILL` (20_memory.md R51, R54). -/
def Memory.fillByte (fill : Word) (a : Nat) : Byte := byteLane fill (a % 4)

/-- The byte listed at an address, if any. -/
def Memory.lookup (a : Nat) : Memory → Option Byte
  | [] => none
  | (b, v) :: m => if a = b then some v else Memory.lookup a m

/-- The byte at a byte address inside the memory. -/
def Memory.readByte (fill : Word) (m : Memory) (a : Nat) : Byte :=
  (Memory.lookup a m).getD (Memory.fillByte fill a)

/-- List a byte at an address, keeping the addresses strictly rising. -/
def Memory.put (a : Nat) (v : Byte) : Memory → Memory
  | [] => [(a, v)]
  | (b, w) :: m =>
    if a < b then (a, v) :: (b, w) :: m
    else if a = b then (a, v) :: m
    else (b, w) :: Memory.put a v m

/-- List nothing at an address (in a list in canonical form, at most one cell goes). -/
def Memory.unlist (a : Nat) : Memory → Memory
  | [] => []
  | (b, w) :: m => if a = b then Memory.unlist a m else (b, w) :: Memory.unlist a m

/-- Write a byte at a byte address inside the memory: a byte equal to the fill is not listed. -/
def Memory.writeByte (fill : Word) (m : Memory) (a : Nat) (v : Byte) : Memory :=
  if v = Memory.fillByte fill a then Memory.unlist a m else Memory.put a v m

/-- `mem[i]` (20_memory.md R51): the four bytes of word `i`, little-endian (R54). -/
def Memory.readWord (fill : Word) (m : Memory) (i : Nat) : Word :=
  wordOfBytes (m.readByte fill (4 * i)) (m.readByte fill (4 * i + 1)) (m.readByte fill (4 * i + 2))
    (m.readByte fill (4 * i + 3))

/-- `mem[i] := w` (20_memory.md R59), little-endian (R54). -/
def Memory.writeWord (fill : Word) (m : Memory) (i : Nat) (w : Word) : Memory :=
  let m := Memory.writeByte fill m (4 * i) (byteLane w 0)
  let m := Memory.writeByte fill m (4 * i + 1) (byteLane w 1)
  let m := Memory.writeByte fill m (4 * i + 2) (byteLane w 2)
  Memory.writeByte fill m (4 * i + 3) (byteLane w 3)

/-- The addresses of the cells rise strictly from a lower bound on. -/
def Memory.risesFrom (lo : Nat) : Memory → Bool
  | [] => true
  | (a, _) :: m => decide (lo ≤ a) && Memory.risesFrom (a + 1) m

/-- The canonical form: addresses strictly rising, none at or past the end of the memory, no cell equal to
what an unlisted address reads as. Equal memories are then equal lists (log 4). -/
def Memory.wf (c : Config) (m : Memory) : Bool :=
  m.risesFrom 0 && m.all fun cell =>
    decide (cell.1 < 4 * c.memWords) && decide (cell.2 ≠ Memory.fillByte c.memFill cell.1)

/-! ## Memory as the core reaches it (20_memory.md R52 to R61) -/

/-- Whether an address is in range (20_memory.md R52). -/
def State.inRange (s : State) (a : Word) : Bool := decide (wordIndex a < s.cfg.memWords)

/-- `read(addr)`: the whole word containing the address, 0 out of range (20_memory.md R53). -/
def State.readWord (s : State) (a : Word) : Word :=
  if s.inRange a then s.mem.readWord s.cfg.memFill (wordIndex a) else 0#32

/-- `mem[i] := w` for the word containing the address; nothing out of range (20_memory.md R59). -/
def State.writeWord (s : State) (a : Word) (w : Word) : State :=
  if s.inRange a then { s with mem := s.mem.writeWord s.cfg.memFill (wordIndex a) w } else s

/-- `MemRead(addr, 1)` (20_memory.md R55). -/
def State.memRead1 (s : State) (a : Word) : Byte :=
  ((s.readWord a >>> (8 * lane a)) &&& 0xFF#32).setWidth 8

/-- `MemRead(addr, 2)` (20_memory.md R56). Out of range it is 0 for every offset, also under `STUCK` (log 8). -/
def State.memRead2 (s : State) (a : Word) : Except Fault Half :=
  if s.inRange a && decide (lane a = 3) && decide (s.cfg.misalignedSubword = .stuck) then
    .error .halfwordStuck
  else
    .ok (((s.readWord a >>> (8 * lane a)) &&& 0xFFFF#32).setWidth 16)

/-- `MemRead(addr, 4)` (20_memory.md R58). -/
def State.memRead4 (s : State) (a : Word) : Word := s.readWord a

/-- The read-modify-write of a sub-word store: the bits of `mask` come from `v`, the others stay. -/
def mergeBits (old mask v : Word) : Word := (old &&& ~~~mask) ||| (v &&& mask)

/-- `MemWrite(addr, 1, v)` (20_memory.md R60). -/
def State.memWrite1 (s : State) (a v : Word) : State :=
  s.writeWord a
    (mergeBits (s.readWord a) (0xFF#32 <<< (8 * lane a)) ((v &&& 0xFF#32) <<< (8 * lane a)))

/-- `MemWrite(addr, 2, v)` (20_memory.md R61). At offset 3 the mask and the value, cut at 32 bits, are those
of `TRUNCATE`. Out of range it does nothing, also under `STUCK` (log 8). -/
def State.memWrite2 (s : State) (a v : Word) : Except Fault State :=
  if s.inRange a && decide (lane a = 3) && decide (s.cfg.misalignedSubword = .stuck) then
    .error .halfwordStuck
  else
    .ok (s.writeWord a
      (mergeBits (s.readWord a) (0xFFFF#32 <<< (8 * lane a)) ((v &&& 0xFFFF#32) <<< (8 * lane a))))

/-- `MemWrite(addr, 4, v)` (20_memory.md R59). -/
def State.memWrite4 (s : State) (a v : Word) : State := s.writeWord a v

/-! ## Fetch (10_state.md R31, 20_memory.md R57) -/

/-- The fetch unit: the word containing `pc`, or none for a fetch out of bounds (10_state.md R31). -/
def State.fetch (s : State) : Option Word :=
  if wordIndex s.pc < s.cfg.memWords then some (s.mem.readWord s.cfg.memFill (wordIndex s.pc)) else none

/-- Lay one word where the next step fetches, in a core that runs freely: what a loader outside the machine
does (70_reset_and_hazards.md R252; log 14). -/
def State.placeAtFetch (s : State) (w : Word) : State :=
  { s.writeWord s.pc w with runState := .running, stepMode := false }

/-! ## Conditions, halting, the miss policy (60_exceptions.md R220 to R223) -/

/-- `raise <Condition>(info)` (00_scope.md R14): the condition is recorded. -/
def State.raise (s : State) (c : Condition) : State := { s with raised := s.raised ++ [c] }

/-- `halt(reason)` (00_scope.md R14): only the run state changes (10_state.md R26). -/
def State.halt (s : State) (r : HaltReason) : State := { s with runState := .halted r }

/-- An out-of-bounds fetch: raised, then the core halts (10_state.md R31, 60_exceptions.md R223). -/
def State.fetchOutOfBounds (s : State) : State :=
  (s.raise (.outOfBoundsFetch s.pc)).halt .outOfBoundsFetch

/-- A dispatch miss: raised, counted, then skipped or halted on (60_exceptions.md R221, R222). -/
def State.miss (s : State) (info : MissInfo) : State :=
  let s := s.raise (.instructionNotFound info)
  let s := { s with missCount := s.missCount + 1 }
  if 0 < s.cfg.missHaltLimit ∧ s.cfg.missHaltLimit ≤ s.missCount then s.halt .missLimit else s.advance

/-- The start of a step: `redirect <- false` (10_state.md R30). -/
def State.beginStep (s : State) : State := { s with redirect := false }

/-- The end of an executed instruction: the miss count is cleared, the trace string emitted, and `pc` advances
unless the core halted or the instruction set `pc` (10_state.md R30, R32). `redirect` is not meaningful
between steps and is cleared (log 9). -/
def State.retire (s : State) (i : Instr) : State :=
  let s := { s with missCount := 0, traceOut := s.traceOut ++ [i] }
  let s := if s.runState = .running ∧ s.redirect = false then s.advance else s
  { s with redirect := false }

/-- Whether a halt ended the run by an error condition, not by request (70_reset_and_hazards.md R255). -/
def HaltReason.isError : HaltReason → Bool
  | .outOfBoundsFetch | .missLimit => true
  | .ecall | .exit => false

/-! ## Trace text (60_exceptions.md R238) -/

/-- The trace string of an executed instruction, `"<MNEMONIC> <operands...>\n"` (60_exceptions.md R238). -/
def traceString (i : Instr) : String := i.op.mnemonic ++ " " ++ Config.traceOperands i ++ "\n"

/-- The trace port's output. -/
def State.traceStrings (s : State) : List String := s.traceOut.map traceString

/-- What the logger prints: the trace strings, gated by the debug toggle (60_exceptions.md R238). -/
def State.loggedStrings (s : State) : List String := if s.debugLog then s.traceStrings else []

/-! ## The condition taxonomy (60_exceptions.md R220) -/

/-- The four error conditions of the core and its loader (60_exceptions.md R220). -/
inductive ConditionName where
  | instructionNotFound | outOfBoundsFetch | imageTooLarge | malformedCommand
deriving DecidableEq, Repr

/-- The code of a condition (60_exceptions.md R220, 92_eei_decisions.md D20). -/
def ConditionName.code : ConditionName → Nat
  | .instructionNotFound => 1
  | .outOfBoundsFetch => 2
  | .imageTooLarge => 3
  | .malformedCommand => 4

/-- The name of a condition a running core raised, its info left out. -/
def Condition.name : Condition → ConditionName
  | .instructionNotFound _ => .instructionNotFound
  | .outOfBoundsFetch _ => .outOfBoundsFetch
  | .malformedCommand _ => .malformedCommand

/-- The condition a refusal stands for: `ImageTooLarge`, which the loader raises before a core exists and which
records no info (60_exceptions.md R220, R224); none for what the spec does not call a condition. -/
def Refusal.conditionName (r : Refusal) : Option ConditionName :=
  if r = .imageTooLarge then some .imageTooLarge else none

/-- The code of a condition a running core raised (60_exceptions.md R220). -/
def Condition.code (c : Condition) : Nat := c.name.code

end Sys2Proof.Machine
end

