-- ==== Sys2Proof/Machine/Operands.lean ====
section
/-! DEFINITION. The operand forms: extended immediates, shift amounts, effective addresses and targets
(00_scope.md R12, 30_encoding.md R89 to R95, 43_load_store.md R160, 44_control_transfer.md). -/

namespace Sys2Proof.Machine

/-- `sext_N(v)` (00_scope.md R12). -/
def sext {n : Nat} (v : BitVec n) : Word := v.signExtend 32

/-- `zext_N(v)` (00_scope.md R12). -/
def zext {n : Nat} (v : BitVec n) : Word := v.setWidth 32

/-- The extension SLTIU applies to its immediate (42_alu_immediate.md R146). -/
def sltiuImm (c : Config) (imm : BitVec 12) : Word :=
  match c.sltiuImmExt with
  | .zero => zext imm
  | .sign => sext imm

/-- The U immediate as used, shifted once (30_encoding.md R92, 90_conflicts.md C2). -/
def upperImm (imm : BitVec 20) : Word := imm ++ 0#12

/-- The amount of a register shift: the low 5 bits (41_alu_register.md R126). -/
def shiftAmount (b : Word) : Nat := (bits b 0 5).toNat

/-- The effective address of a load or store (43_load_store.md R160). -/
def State.ea (s : State) (rs1 : RegIdx) (imm : BitVec 12) : Word := s.readReg rs1 + sext imm

/-- The target of a branch or JAL, modulo 2^32 (10_state.md R33). -/
def State.pcTarget {n : Nat} (s : State) (offset : BitVec n) : Word := s.pc + sext offset

/-- The link value of JAL and JALR (44_control_transfer.md R187, R188). -/
def State.link (s : State) : Word := s.pc + 4#32

/-- The JALR target (44_control_transfer.md R188). -/
def State.jalrTarget (s : State) (rs1 : RegIdx) (imm : BitVec 12) : Word :=
  let t := s.readReg rs1 + sext imm
  if s.cfg.jalrClearsBit0 then t &&& 0xFFFFFFFE#32 else t

end Sys2Proof.Machine
end

