-- ==== Sys2Proof/Machine/Flags.lean ====
section
/-! DEFINITION. The core has no flags (10_state.md R28): a condition is computed from two words inside the
instruction. These are the comparators of the set-less-than and branch instructions. -/

namespace Sys2Proof.Machine

/-- `a <s b` (00_scope.md R11). -/
def ltSigned (a b : Word) : Bool := decide (a.toInt < b.toInt)

/-- `a <u b` (00_scope.md R11). -/
def ltUnsigned (a b : Word) : Bool := decide (a.toNat < b.toNat)

/-- `bool(c)` (00_scope.md R11). -/
def boolWord (c : Bool) : Word := if c then 1#32 else 0#32

end Sys2Proof.Machine
end

