-- ==== Sys2Proof/Machine/AluImmediate.lean ====
section
/-! DEFINITION. The register-immediate ALU instructions (42_alu_immediate.md). -/

namespace Sys2Proof.Machine

/-- The OP-IMM family: one register is read, the result is written, nothing else (42_alu_immediate.md R140). -/
def opImm (f : Word → Word) (rd rs1 : RegIdx) (s : State) : Host.Outcome State Fault Refusal :=
  .next (s.writeReg rd (f (s.readReg rs1)))

/-- ADDI (42_alu_immediate.md R141). -/
def execAddi (rd rs1 : RegIdx) (imm : BitVec 12) (s : State) : Host.Outcome State Fault Refusal :=
  opImm (fun a => a + sext imm) rd rs1 s

/-- ANDI (42_alu_immediate.md R142). -/
def execAndi (rd rs1 : RegIdx) (imm : BitVec 12) (s : State) : Host.Outcome State Fault Refusal :=
  opImm (fun a => a &&& sext imm) rd rs1 s

/-- ORI (42_alu_immediate.md R143). -/
def execOri (rd rs1 : RegIdx) (imm : BitVec 12) (s : State) : Host.Outcome State Fault Refusal :=
  opImm (fun a => a ||| sext imm) rd rs1 s

/-- XORI (42_alu_immediate.md R144). -/
def execXori (rd rs1 : RegIdx) (imm : BitVec 12) (s : State) : Host.Outcome State Fault Refusal :=
  opImm (fun a => a ^^^ sext imm) rd rs1 s

/-- SLTI (42_alu_immediate.md R145). -/
def execSlti (rd rs1 : RegIdx) (imm : BitVec 12) (s : State) : Host.Outcome State Fault Refusal :=
  opImm (fun a => boolWord (ltSigned a (sext imm))) rd rs1 s

/-- SLTIU (42_alu_immediate.md R146): the extension is `SLTIU_IMM_EXT`. -/
def execSltiu (rd rs1 : RegIdx) (imm : BitVec 12) (s : State) : Host.Outcome State Fault Refusal :=
  opImm (fun a => boolWord (ltUnsigned a (sltiuImm s.cfg imm))) rd rs1 s

/-- SLLI (42_alu_immediate.md R147). -/
def execSlli (rd rs1 : RegIdx) (shamt : BitVec 5) (s : State) : Host.Outcome State Fault Refusal :=
  opImm (fun a => a <<< shamt.toNat) rd rs1 s

/-- SRLI (42_alu_immediate.md R148). -/
def execSrli (rd rs1 : RegIdx) (shamt : BitVec 5) (s : State) : Host.Outcome State Fault Refusal :=
  opImm (fun a => a >>> shamt.toNat) rd rs1 s

/-- SRAI (42_alu_immediate.md R149). -/
def execSrai (rd rs1 : RegIdx) (shamt : BitVec 5) (s : State) : Host.Outcome State Fault Refusal :=
  opImm (fun a => a.sshiftRight shamt.toNat) rd rs1 s

end Sys2Proof.Machine
end

