-- ==== Sys2Proof/Machine/AluRegister.lean ====
section
/-! DEFINITION. The register-register ALU instructions (41_alu_register.md). -/

namespace Sys2Proof.Machine

/-- The OP family: both registers are read, the result is written, nothing else (41_alu_register.md R120). -/
def opReg (f : Word → Word → Word) (rd rs1 rs2 : RegIdx) (s : State) : Host.Outcome State Fault Refusal :=
  .next (s.writeReg rd (f (s.readReg rs1) (s.readReg rs2)))

/-- ADD (41_alu_register.md R121). -/
def execAdd (rd rs1 rs2 : RegIdx) (s : State) : Host.Outcome State Fault Refusal :=
  opReg (fun a b => a + b) rd rs1 rs2 s

/-- SUB (41_alu_register.md R122). -/
def execSub (rd rs1 rs2 : RegIdx) (s : State) : Host.Outcome State Fault Refusal :=
  opReg (fun a b => a - b) rd rs1 rs2 s

/-- AND (41_alu_register.md R123). -/
def execAnd (rd rs1 rs2 : RegIdx) (s : State) : Host.Outcome State Fault Refusal :=
  opReg (fun a b => a &&& b) rd rs1 rs2 s

/-- OR (41_alu_register.md R124). -/
def execOr (rd rs1 rs2 : RegIdx) (s : State) : Host.Outcome State Fault Refusal :=
  opReg (fun a b => a ||| b) rd rs1 rs2 s

/-- XOR (41_alu_register.md R125). -/
def execXor (rd rs1 rs2 : RegIdx) (s : State) : Host.Outcome State Fault Refusal :=
  opReg (fun a b => a ^^^ b) rd rs1 rs2 s

/-- SLL (41_alu_register.md R126). -/
def execSll (rd rs1 rs2 : RegIdx) (s : State) : Host.Outcome State Fault Refusal :=
  opReg (fun a b => a <<< shiftAmount b) rd rs1 rs2 s

/-- SRL (41_alu_register.md R127). -/
def execSrl (rd rs1 rs2 : RegIdx) (s : State) : Host.Outcome State Fault Refusal :=
  opReg (fun a b => a >>> shiftAmount b) rd rs1 rs2 s

/-- SRA (41_alu_register.md R128). -/
def execSra (rd rs1 rs2 : RegIdx) (s : State) : Host.Outcome State Fault Refusal :=
  opReg (fun a b => a.sshiftRight (shiftAmount b)) rd rs1 rs2 s

/-- SLT (41_alu_register.md R129). -/
def execSlt (rd rs1 rs2 : RegIdx) (s : State) : Host.Outcome State Fault Refusal :=
  opReg (fun a b => boolWord (ltSigned a b)) rd rs1 rs2 s

/-- SLTU (41_alu_register.md R130). -/
def execSltu (rd rs1 rs2 : RegIdx) (s : State) : Host.Outcome State Fault Refusal :=
  opReg (fun a b => boolWord (ltUnsigned a b)) rd rs1 rs2 s

end Sys2Proof.Machine
end

