-- ==== Sys2Proof/Machine/ControlTransfer.lean ====
section
/-! DEFINITION. Branches, JAL and JALR (44_control_transfer.md). -/

namespace Sys2Proof.Machine

/-- A branch: on a true condition `pc <- pc + sext_13(imm_B)`, otherwise nothing (44_control_transfer.md R180). -/
def branch (cond : Word → Word → Bool) (rs1 rs2 : RegIdx) (offset : BitVec 13) (s : State) :
    Host.Outcome State Fault Refusal :=
  if cond (s.readReg rs1) (s.readReg rs2) then .next (s.jump (s.pcTarget offset)) else .next s

/-- BEQ (44_control_transfer.md R181). -/
def execBeq (rs1 rs2 : RegIdx) (offset : BitVec 13) (s : State) : Host.Outcome State Fault Refusal :=
  branch (fun a b => decide (a = b)) rs1 rs2 offset s

/-- BNE (44_control_transfer.md R182). -/
def execBne (rs1 rs2 : RegIdx) (offset : BitVec 13) (s : State) : Host.Outcome State Fault Refusal :=
  branch (fun a b => decide (a ≠ b)) rs1 rs2 offset s

/-- BLT (44_control_transfer.md R183). -/
def execBlt (rs1 rs2 : RegIdx) (offset : BitVec 13) (s : State) : Host.Outcome State Fault Refusal :=
  branch (fun a b => ltSigned a b) rs1 rs2 offset s

/-- BGE (44_control_transfer.md R184). -/
def execBge (rs1 rs2 : RegIdx) (offset : BitVec 13) (s : State) : Host.Outcome State Fault Refusal :=
  branch (fun a b => !ltSigned a b) rs1 rs2 offset s

/-- BLTU (44_control_transfer.md R185). -/
def execBltu (rs1 rs2 : RegIdx) (offset : BitVec 13) (s : State) : Host.Outcome State Fault Refusal :=
  branch (fun a b => ltUnsigned a b) rs1 rs2 offset s

/-- BGEU (44_control_transfer.md R186). -/
def execBgeu (rs1 rs2 : RegIdx) (offset : BitVec 13) (s : State) : Host.Outcome State Fault Refusal :=
  branch (fun a b => !ltUnsigned a b) rs1 rs2 offset s

/-- JAL (44_control_transfer.md R187). -/
def execJal (rd : RegIdx) (offset : BitVec 21) (s : State) : Host.Outcome State Fault Refusal :=
  .next ((s.jump (s.pcTarget offset)).writeReg rd s.link)

/-- JALR (44_control_transfer.md R188): the target uses the old `x[rs1]`. -/
def execJalr (rd rs1 : RegIdx) (imm : BitVec 12) (s : State) : Host.Outcome State Fault Refusal :=
  .next ((s.jump (s.jalrTarget rs1 imm)).writeReg rd s.link)

end Sys2Proof.Machine
end

