-- ==== Sys2Proof/Machine/LoadStore.lean ====
section
/-! DEFINITION. The loads and stores (43_load_store.md). -/

namespace Sys2Proof.Machine

/-- Write a loaded halfword extended by `f`, or have no step (20_memory.md R56). -/
def loadHalf (f : Half → Word) (rd rs1 : RegIdx) (imm : BitVec 12) (s : State) :
    Host.Outcome State Fault Refusal :=
  match s.memRead2 (s.ea rs1 imm) with
  | .ok h => .next (s.writeReg rd (f h))
  | .error e => .fault e

/-- LB (43_load_store.md R161). -/
def execLb (rd rs1 : RegIdx) (imm : BitVec 12) (s : State) : Host.Outcome State Fault Refusal :=
  .next (s.writeReg rd (sext (s.memRead1 (s.ea rs1 imm))))

/-- LH (43_load_store.md R162). -/
def execLh (rd rs1 : RegIdx) (imm : BitVec 12) (s : State) : Host.Outcome State Fault Refusal :=
  loadHalf sext rd rs1 imm s

/-- LW (43_load_store.md R163). -/
def execLw (rd rs1 : RegIdx) (imm : BitVec 12) (s : State) : Host.Outcome State Fault Refusal :=
  .next (s.writeReg rd (s.memRead4 (s.ea rs1 imm)))

/-- LBU (43_load_store.md R164). -/
def execLbu (rd rs1 : RegIdx) (imm : BitVec 12) (s : State) : Host.Outcome State Fault Refusal :=
  .next (s.writeReg rd (zext (s.memRead1 (s.ea rs1 imm))))

/-- LHU (43_load_store.md R165). -/
def execLhu (rd rs1 : RegIdx) (imm : BitVec 12) (s : State) : Host.Outcome State Fault Refusal :=
  loadHalf zext rd rs1 imm s

/-- SB (43_load_store.md R166). -/
def execSb (rs2 rs1 : RegIdx) (imm : BitVec 12) (s : State) : Host.Outcome State Fault Refusal :=
  .next (s.memWrite1 (s.ea rs1 imm) (s.readReg rs2))

/-- SH (43_load_store.md R167). -/
def execSh (rs2 rs1 : RegIdx) (imm : BitVec 12) (s : State) : Host.Outcome State Fault Refusal :=
  match s.memWrite2 (s.ea rs1 imm) (s.readReg rs2) with
  | .ok t => .next t
  | .error e => .fault e

/-- SW (43_load_store.md R168). -/
def execSw (rs2 rs1 : RegIdx) (imm : BitVec 12) (s : State) : Host.Outcome State Fault Refusal :=
  .next (s.memWrite4 (s.ea rs1 imm) (s.readReg rs2))

end Sys2Proof.Machine
end

