-- ==== Sys2Proof/Machine/System.lean ====
section
/-! DEFINITION. FENCE, ECALL and EBREAK (46_system.md). -/

namespace Sys2Proof.Machine

/-- FENCE: "no architectural effect (no-op)" (46_system.md R210). -/
def execFence (s : State) : Host.Outcome State Fault Refusal := .next s

/-- ECALL: halts or does nothing, per `ECALL_ACTION` (46_system.md R211). -/
def execEcall (s : State) : Host.Outcome State Fault Refusal :=
  match s.cfg.ecallAction with
  | .halt => .next (s.halt .ecall)
  | .nop => .next s

/-- EBREAK: toggles step mode (46_system.md R212). -/
def execEbreak (s : State) : Host.Outcome State Fault Refusal :=
  .next { s with stepMode := !s.stepMode }

end Sys2Proof.Machine
end

