-- ==== Sys2Proof/Machine/UpperImmediate.lean ====
section
/-! DEFINITION. LUI and AUIPC (45_upper_immediate.md). -/

namespace Sys2Proof.Machine

/-- LUI (45_upper_immediate.md R200). -/
def execLui (rd : RegIdx) (imm : BitVec 20) (s : State) : Host.Outcome State Fault Refusal :=
  .next (s.writeReg rd (upperImm imm))

/-- AUIPC (45_upper_immediate.md R201): `pc` is the address of the AUIPC itself. -/
def execAuipc (rd : RegIdx) (imm : BitVec 20) (s : State) : Host.Outcome State Fault Refusal :=
  .next (s.writeReg rd (s.pc + upperImm imm))

end Sys2Proof.Machine
end

