-- ==== Sys2Proof/Machine/Boot.lean ====
section
/-! DEFINITION. Power-on, image placement and the host's reset (70_reset_and_hazards.md R250 to R253,
60_exceptions.md R235). -/

namespace Sys2Proof.Machine

/-- Store the words of an image from word index `i` on (70_reset_and_hazards.md R252). -/
def loadWords (fill : Word) (m : Memory) (i : Nat) : List Word → Memory
  | [] => m
  | w :: ws => loadWords fill (m.writeWord fill i w) (i + 1) ws

/-- The memory after power-on: `MEM_FILL` everywhere, then the image at `START_ADDR / 4`. -/
def bootMemory (c : Config) : Memory := loadWords c.memFill [] (wordIndex c.startAddr) c.image

/-- Every piece of state after power-on with an accepted configuration (10_state.md R37). -/
def bootState (c : Config) : State where
  regs := filledRegs c.regFill
  pc := c.startAddr
  mem := bootMemory c
  runState := .running
  stepMode := c.stepModeInit
  missCount := 0
  redirect := false
  debugLog := c.debugLog
  cfg := c
  hostQueue := []
  traceOut := []
  raised := []
  dumpOut := []

/-- The power-on sequence (70_reset_and_hazards.md R250): a configuration outside its ranges is refused
(00_scope.md R7), an image that does not fit is `ImageTooLarge` (R253), and no run starts. -/
def powerOn (c : Config) : Host.Outcome State Fault Refusal :=
  if c.valid = false then .refused .configurationOutOfRange
  else if c.imageFits = false then .refused .imageTooLarge
  else .next (bootState c)

/-- The words of an image file: little-endian, least significant byte first; a length that is not a
multiple of 4 is refused (70_reset_and_hazards.md R252, 92_eei_decisions.md D18). -/
def imageOfFile : List Byte → Except Refusal (List Word)
  | [] => .ok []
  | b0 :: b1 :: b2 :: b3 :: rest =>
    match imageOfFile rest with
    | .ok ws => .ok (wordOfBytes b0 b1 b2 b3 :: ws)
    | .error r => .error r
  | _ => .error .imageFileLength

/-- The host's `reset` (60_exceptions.md R235, 92_eei_decisions.md D17): registers, `pc` and the miss count;
memory, step mode and run state stay. -/
def State.hostReset (s : State) : State :=
  { s with regs := filledRegs s.cfg.regFill, pc := s.cfg.startAddr, missCount := 0 }

end Sys2Proof.Machine
end

