-- ==== Sys2Proof/Machine/HostPort.lean ====
section
/-! DEFINITION. The host and debug interface (60_exceptions.md R232 to R237). -/

namespace Sys2Proof.Machine

/-- Whether the core waits for the host before its next instruction (10_state.md R27). -/
def State.suspended (s : State) : Bool := decide (s.runState = .running) && s.stepMode

/-- The decoded pending instruction the host may read; none where the next fetch is out of bounds
(60_exceptions.md R232). -/
def State.pending (s : State) : Option Decoded := s.fetch.map decode

/-- What the host may read of a suspended core (60_exceptions.md R232). -/
structure HostView where
  regs : Vector Word 32
  pc : Word
  pending : Option Decoded
deriving DecidableEq, Repr

/-- The host's view: x0 to x31, `pc` and the pending instruction (60_exceptions.md R232). -/
def State.hostView (s : State) : HostView where
  regs := Vector.ofFn fun i : Fin 32 => s.readReg (BitVec.ofFin i)
  pc := s.pc
  pending := s.pending

/-- The words of `x/<count> <hexAddress>`: `read(addr + 4*i)`, addresses modulo 2^32 (60_exceptions.md R237). -/
def State.dumpWords (s : State) (addr : Word) : Nat → List Word
  | 0 => []
  | n + 1 => s.readWord addr :: s.dumpWords (addr + 4#32) n

/-! ## Command texts (60_exceptions.md R232, R237) -/

/-- The value of a digit in a base up to 16. -/
def digitValue (base : Nat) (ch : Char) : Option Nat :=
  let n := ch.toNat
  let v :=
    if 48 ≤ n ∧ n ≤ 57 then n - 48
    else if 97 ≤ n ∧ n ≤ 102 then n - 87
    else if 65 ≤ n ∧ n ≤ 70 then n - 55
    else 16
  if v < base then some v else none

/-- A number's digits after the first ones, which gave `acc`. -/
def parseDigits (base acc : Nat) : List Char → Option Nat
  | [] => some acc
  | ch :: rest =>
    match digitValue base ch with
    | some v => parseDigits base (acc * base + v) rest
    | none => none

/-- A number in a base: at least one digit and nothing else. -/
def parseNumber (base : Nat) : List Char → Option Nat
  | [] => none
  | ch :: rest => parseDigits base 0 (ch :: rest)

/-- A hexadecimal number, with or without `0x` (log 15). -/
def parseHex : List Char → Option Nat
  | '0' :: 'x' :: rest => parseNumber 16 rest
  | text => parseNumber 16 text

/-- A token and what follows the space after it; none where there is no space. -/
def splitAtSpace : List Char → Option (List Char × List Char)
  | [] => none
  | ' ' :: rest => some ([], rest)
  | ch :: rest =>
    match splitAtSpace rest with
    | some (t, r) => some (ch :: t, r)
    | none => none

/-- The two numbers of a dump command: `count` decimal, the address hexadecimal (60_exceptions.md R237). -/
def parseDump (text : List Char) : Option (Nat × Word) :=
  match splitAtSpace text with
  | none => none
  | some (count, addr) =>
    match parseNumber 10 count, parseHex addr with
    | some n, some a => some (n, BitVec.ofNat 32 a)
    | _, _ => none

/-- A command text read as a command: the closed set of 60_exceptions.md R232; a token that does not parse, or
any other text, is malformed (R237). The command line's own form is outside the spec (00_scope.md R5; log 15). -/
def HostCommand.parse (text : List Char) : HostCommand :=
  if text = ['s', 't', 'e', 'p'] then .step
  else if text = ['c', 'o', 'n', 't', 'i', 'n', 'u', 'e'] then .continue
  else if text = ['r', 'e', 's', 'e', 't'] then .reset
  else if text = ['e', 'x', 'i', 't'] then .exit
  else
    match text with
    | 'x' :: '/' :: rest =>
      match parseDump rest with
      | some (n, a) => .dump n a
      | none => .malformed (String.ofList text)
    | _ => .malformed (String.ofList text)

/-! ## Process exit (outside the core: 70_reset_and_hazards.md R255) -/

/-- What the spec says of the process exit status after a halt. -/
inductive ExitStatus where
  | value (n : Int)
  | nonzero
deriving DecidableEq, Repr

/-- `EXIT_STATUS_ECALL` after an ECALL halt (92_eei_decisions.md D30), nonzero after the fatal out-of-bounds
fetch (60_exceptions.md R223); the spec states none for the other reasons. -/
def State.exitStatus (s : State) : Option ExitStatus :=
  match s.runState with
  | .halted .ecall => some (.value s.cfg.exitStatusEcall)
  | .halted .outOfBoundsFetch => some .nonzero
  | .halted .missLimit => none
  | .halted .exit => none
  | .running => none

end Sys2Proof.Machine
end

