-- ==== Sys2Proof/Machine/Cycle.lean ====
section
/-! DEFINITION. The fetch-execute step and the suspended core's commands (10_state.md R30,
60_exceptions.md R225, R232 to R237). -/

namespace Sys2Proof.Machine

/-- One step of a core that is running and not suspended: fetch, decode and dispatch, then the miss policy or
the instruction (10_state.md R30). -/
def State.coreStep (s : State) : Host.Outcome State Fault Refusal :=
  match s.fetch with
  | none => .next s.fetchOutOfBounds
  | some w =>
    match decode w with
    | .instructionNotFound info => .next (s.beginStep.miss info)
    | .hit i =>
      match exec i s.beginStep with
      | .next t => .next (t.retire i)
      | .fault f => .fault f
      | .refused r => .refused r

/-- What a suspended core does with one command of the host (60_exceptions.md R233 to R237). -/
def State.command (s : State) : HostCommand → Host.Outcome State Fault Refusal
  | .step => s.coreStep
  | .continue => .next { s with stepMode := false }
  | .reset => .next s.hostReset
  | .exit => .next (s.halt .exit)
  | .dump count addr => .next { s with dumpOut := s.dumpOut ++ [s.dumpWords addr count] }
  | .malformed text => .next (s.raise (.malformedCommand text))

/-- The order of 60_exceptions.md R225: a halted core does nothing (log 5), a suspended one waits for a command
(log 6, log 7), any other takes a step. -/
def cycle (s : State) : Host.Outcome State Fault Refusal :=
  match s.runState with
  | .halted _ => .next s
  | .running =>
    if s.stepMode then
      match s.hostQueue with
      | [] => .fault .suspendedNoCommand
      | c :: rest => State.command { s with hostQueue := rest } c
    else s.coreStep

end Sys2Proof.Machine
end

