-- ==== Sys2Proof/Machine/Step.lean ====
section
/-! DEFINITION. The step, and how the host lays an instruction where it fetches. -/

namespace Sys2Proof.Machine

/-- One step of the machine (10_state.md R30, 60_exceptions.md R225). -/
def step (s : State) : Host.Outcome State Fault Refusal := cycle s

/-- `s` with the instruction whose bits are `w` stored where `step` fetches next, its bits at and above `nbits`
zero (log 14). The core is set running and free of step mode, as a fetch needs. -/
def State.withFetchWord (s : State) (nbits w : Nat) : State :=
  s.placeAtFetch (BitVec.ofNat 32 (w % 2 ^ nbits))

end Sys2Proof.Machine
end

