-- ==== Sys2Proof/WellFormed.lean ====
section
/-! DEFINITION. Which instructions the encoding admits. -/

namespace Sys2Proof

/-- A branch or jump offset is even: "with bit0 implicitly zero" (30_encoding.md R86, R88). -/
def evenOffset {n : Nat} (offset : BitVec n) : Bool := !offset.getLsbD 0

/-- The encoding admits every value of every operand, except that bit 0 of a branch or jump offset is
not encoded and is zero (30_encoding.md R91, R93). -/
def Instr.wellFormed : Instr → Bool
  | .jal _ offset => evenOffset offset
  | .beq _ _ offset => evenOffset offset
  | .bne _ _ offset => evenOffset offset
  | .blt _ _ offset => evenOffset offset
  | .bge _ _ offset => evenOffset offset
  | .bltu _ _ offset => evenOffset offset
  | .bgeu _ _ offset => evenOffset offset
  | .lui .. | .auipc .. | .jalr .. => true
  | .lb .. | .lh .. | .lw .. | .lbu .. | .lhu .. | .sb .. | .sh .. | .sw .. => true
  | .addi .. | .slti .. | .sltiu .. | .xori .. | .ori .. | .andi .. | .slli .. | .srli .. | .srai .. => true
  | .add .. | .sub .. | .sll .. | .slt .. | .sltu .. | .xor .. | .srl .. | .sra .. | .or .. | .and .. => true
  | .fence .. | .ecall .. | .ebreak .. => true

end Sys2Proof
end

