-- ==== Sys2Proof/Safety.lean ====
section
/-! DEFINITION. The terms the statements are written in: what two states share, what an instruction names, and
the invariant of a run. -/

namespace Sys2Proof

open Machine

/-! ## What two states share -/

/-- Every byte of memory reads the same (20_memory.md R55). -/
def SameMemory (s t : State) : Prop := ∀ a : Word, t.memRead1 a = s.memRead1 a

/-- Every register reads the same (10_state.md R21). -/
def SameRegs (s t : State) : Prop := ∀ r : RegIdx, t.readReg r = s.readReg r

/-- The state beside registers, pc, redirect and memory is the same: the control state of 10_state.md R29, the
host's queue and the outputs. -/
structure SameControl (s t : State) : Prop where
  cfg : t.cfg = s.cfg
  runState : t.runState = s.runState
  stepMode : t.stepMode = s.stepMode
  missCount : t.missCount = s.missCount
  debugLog : t.debugLog = s.debugLog
  hostQueue : t.hostQueue = s.hostQueue
  traceOut : t.traceOut = s.traceOut
  raised : t.raised = s.raised
  dumpOut : t.dumpOut = s.dumpOut

/-- The program counter and the redirect flag are the same. -/
structure SamePc (s t : State) : Prop where
  pc : t.pc = s.pc
  redirect : t.redirect = s.redirect

/-- `t` is `s` with register `rd` holding `v`, nothing written where `rd` is x0, and all else the same. -/
structure SetsOnlyRegister (s t : State) (rd : RegIdx) (v : Word) : Prop where
  dest : t.readReg rd = if rd = 0#5 then 0#32 else v
  others : ∀ r : RegIdx, r ≠ rd → t.readReg r = s.readReg r
  memory : SameMemory s t
  pc : SamePc s t
  control : SameControl s t

/-- `t` is `s` with the given bytes of memory, and all else the same. -/
structure SetsOnlyMemory (s t : State) (byte : Word → Byte) : Prop where
  memory : ∀ a : Word, t.memRead1 a = byte a
  regs : SameRegs s t
  pc : SamePc s t
  control : SameControl s t

/-- `t` is `s` redirected to `target`, with all else the same. -/
structure JumpsOnly (s t : State) (target : Word) : Prop where
  pc : t.pc = target
  redirect : t.redirect = true
  regs : SameRegs s t
  memory : SameMemory s t
  control : SameControl s t

/-- `t` is `s` redirected to `target` with register `rd` holding `link` (nothing written where `rd` is x0), and
all else the same. -/
structure JumpsAndLinks (s t : State) (target : Word) (rd : RegIdx) (link : Word) : Prop where
  pc : t.pc = target
  redirect : t.redirect = true
  dest : t.readReg rd = if rd = 0#5 then 0#32 else link
  others : ∀ r : RegIdx, r ≠ rd → t.readReg r = s.readReg r
  memory : SameMemory s t
  control : SameControl s t

/-! ## What an instruction names -/

/-- The register an instruction writes, per the table of 10_state.md R22. -/
def Instr.writes : Instr → Option RegIdx
  | .lui rd _ | .auipc rd _ | .jal rd _ | .jalr rd _ _ => some rd
  | .lb rd _ _ | .lh rd _ _ | .lw rd _ _ | .lbu rd _ _ | .lhu rd _ _ => some rd
  | .addi rd _ _ | .slti rd _ _ | .sltiu rd _ _ | .xori rd _ _ | .ori rd _ _ | .andi rd _ _ => some rd
  | .slli rd _ _ | .srli rd _ _ | .srai rd _ _ => some rd
  | .add rd _ _ | .sub rd _ _ | .sll rd _ _ | .slt rd _ _ | .sltu rd _ _ => some rd
  | .xor rd _ _ | .srl rd _ _ | .sra rd _ _ | .or rd _ _ | .and rd _ _ => some rd
  | .beq .. | .bne .. | .blt .. | .bge .. | .bltu .. | .bgeu .. => none
  | .sb .. | .sh .. | .sw .. => none
  | .fence .. | .ecall .. | .ebreak .. => none

/-- The registers an instruction reads, per the table of 10_state.md R22. -/
def Instr.reads : Instr → List RegIdx
  | .lui .. | .auipc .. | .jal .. => []
  | .jalr _ rs1 _ => [rs1]
  | .beq rs1 rs2 _ | .bne rs1 rs2 _ | .blt rs1 rs2 _ | .bge rs1 rs2 _ | .bltu rs1 rs2 _ | .bgeu rs1 rs2 _ => [rs1, rs2]
  | .lb _ rs1 _ | .lh _ rs1 _ | .lw _ rs1 _ | .lbu _ rs1 _ | .lhu _ rs1 _ => [rs1]
  | .sb rs2 rs1 _ | .sh rs2 rs1 _ | .sw rs2 rs1 _ => [rs1, rs2]
  | .addi _ rs1 _ | .slti _ rs1 _ | .sltiu _ rs1 _ | .xori _ rs1 _ | .ori _ rs1 _ | .andi _ rs1 _ => [rs1]
  | .slli _ rs1 _ | .srli _ rs1 _ | .srai _ rs1 _ => [rs1]
  | .add _ rs1 rs2 | .sub _ rs1 rs2 | .sll _ rs1 rs2 | .slt _ rs1 rs2 | .sltu _ rs1 rs2 => [rs1, rs2]
  | .xor _ rs1 rs2 | .srl _ rs1 rs2 | .sra _ rs1 rs2 | .or _ rs1 rs2 | .and _ rs1 rs2 => [rs1, rs2]
  | .fence .. | .ecall .. | .ebreak .. => []

/-- Whether an instruction is a branch or a jump, the only ones that set `pc` (10_state.md R32, R33). -/
def Instr.isControlTransfer : Instr → Bool
  | .beq .. | .bne .. | .blt .. | .bge .. | .bltu .. | .bgeu .. | .jal .. | .jalr .. => true
  | _ => false

/-- Whether an instruction is a store, the only ones that write memory (43_load_store.md). -/
def Instr.isStore : Instr → Bool
  | .sb .. | .sh .. | .sw .. => true
  | _ => false

/-- The address a halfword access uses, for the instructions that make one. -/
def halfwordAddress (i : Instr) (s : State) : Option Word :=
  match i with
  | .lh _ rs1 imm | .lhu _ rs1 imm | .sh _ rs1 imm => some (s.ea rs1 imm)
  | _ => none

/-- Whether a halfword access at an address has no step: in range, byte offset 3, under `STUCK`
(20_memory.md R56, R61). -/
def HalfwordStuck (s : State) (a : Word) : Prop :=
  s.inRange a = true ∧ lane a = 3 ∧ s.cfg.misalignedSubword = .stuck

/-- Whether a core takes a step on its own: running, not suspended (10_state.md R27, R30). -/
def FreeRunning (s : State) : Prop := s.runState = .running ∧ s.stepMode = false

/-- Whether a core takes a step of 10_state.md R30: running, and either free or told to by the host's command `step`
(10_state.md R27, 60_exceptions.md R233; the command queue is the model's own field, log 7). -/
def TakesStep (s : State) : Prop :=
  s.runState = .running ∧ (s.stepMode = false ∨ s.stepMode = true ∧ ∃ q, s.hostQueue = .step :: q)

/-- Whether a suspended core takes this command of the host next (60_exceptions.md R232, log 7). -/
def TakesCommand (s : State) (c : HostCommand) : Prop :=
  s.runState = .running ∧ s.stepMode = true ∧ ∃ q, s.hostQueue = c :: q

/-- The word the core fetches decodes to this instruction (10_state.md R30). -/
def FetchesInstr (s : State) (i : Instr) : Prop := ∃ w, s.fetch = some w ∧ decode w = .hit i

/-- The word the core fetches misses, with these raw fields (60_exceptions.md R221). -/
def FetchesMiss (s : State) (info : MissInfo) : Prop := ∃ w, s.fetch = some w ∧ decode w = .instructionNotFound info

/-! ## The invariant of a run -/

/-- What holds before and after every step of a run.
The configuration is in its ranges (00_scope.md R7).
Memory is in its canonical form inside the capacity (log 4).
The register file's slot 0 holds zero (10_state.md R21), and `redirect` is clear between steps (log 9).
A running core has not reached its miss limit (60_exceptions.md R222).
Each halt reason stands only where its rule lets it arise (10_state.md R26). -/
structure RunInvariant (s : State) : Prop where
  config : s.cfg.valid = true
  memory : Memory.wf s.cfg s.mem = true
  slotZero : s.regs[0] = 0#32
  redirect : s.redirect = false
  missLimit : s.runState = .running → 0 < s.cfg.missHaltLimit → s.missCount < s.cfg.missHaltLimit
  outOfBounds : s.runState = .halted .outOfBoundsFetch → s.cfg.memWords ≤ wordIndex s.pc
  ecall : s.runState = .halted .ecall → s.cfg.ecallAction = .halt
  missHalt : s.runState = .halted .missLimit → 0 < s.cfg.missHaltLimit ∧ s.cfg.missHaltLimit ≤ s.missCount
  exit : s.runState = .halted .exit → s.stepMode = true

/-- A run that ended by an error condition, not by request (70_reset_and_hazards.md R255). -/
def EndedByError (s : State) : Prop := ∃ r : HaltReason, s.runState = .halted r ∧ r.isError = true

/-- A safe run so far: the invariant holds and the run has not ended by an error condition. -/
def Safe (s : State) : Prop := RunInvariant s ∧ ¬ EndedByError s

end Sys2Proof
end

