-- ==== Sys2Proof/Certificates/Slice0/Obligations.lean ====
section
/-! DEFINITION. The statements for the provers. The predicates they use (`SetsOnlyRegister`, `SetsOnlyMemory`,
`JumpsOnly`, `JumpsAndLinks`, `RunInvariant`, ...) stand in Sys2Proof/Safety.lean and name every part of the state,
so that each result statement is also a frame statement. -/

open Sys2Proof Sys2Proof.Machine

/-! ## Registers -/

/-- 10_state.md R21: x0 reads 0, a write to it changes nothing; every other register reads back what was written,
and nothing else changes. -/
def Obligations.RegisterZeroIsHardwired : Prop :=
  ∀ (s : State) (v : Word),
    s.readReg 0#5 = 0#32 ∧ s.writeReg 0#5 v = s ∧
      ∀ r : RegIdx, r ≠ 0#5 → (s.writeReg r v).readReg r = v ∧ SetsOnlyRegister s (s.writeReg r v) r v

/-- 10_state.md R22 (an inference the spec marks as its own): an instruction changes no register but the one its row
of the table writes. -/
def Obligations.InstructionWritesAtMostItsRegister : Prop :=
  ∀ (i : Instr) (s t : State), exec i s = .next t →
    ∀ r : RegIdx, i.writes ≠ some r → t.readReg r = s.readReg r

/-- 10_state.md R22 (an inference the spec marks as its own): an instruction depends on no register but the ones its
row of the table reads. Two states that differ only in other registers stop for the same reason, or go to states
that again differ only in registers and agree on the register written. -/
def Obligations.InstructionReadsOnlyItsRegisters : Prop :=
  ∀ (i : Instr) (s : State) (other : Vector Word 32),
    (∀ r ∈ i.reads, ({ s with regs := other } : State).readReg r = s.readReg r) →
      (∃ t u : State, exec i s = .next t ∧ exec i { s with regs := other } = .next u ∧
          u = { t with regs := u.regs } ∧ ∀ r : RegIdx, i.writes = some r → u.readReg r = t.readReg r)
        ∨ ∃ f : Fault, exec i s = .fault f ∧ exec i { s with regs := other } = .fault f

/-! ## Register-register ALU -/

/-- 41_alu_register.md R120: each OP instruction reads its two registers before any write, computes its 32-bit result,
sets `rd` (nothing where `rd` is x0) and changes nothing else; its step then leaves `pc + 4`. The ten results are those
of R121 to R130. -/
def Obligations.OpInstructionsReadComputeWriteAdvance : Prop :=
  ∀ p ∈ ([(Instr.add, fun a b => a + b), (Instr.sub, fun a b => a - b), (Instr.and, fun a b => a &&& b),
        (Instr.or, fun a b => a ||| b), (Instr.xor, fun a b => a ^^^ b),
        (Instr.sll, fun a b => a <<< (b.toNat % 32)), (Instr.srl, fun a b => a >>> (b.toNat % 32)),
        (Instr.sra, fun a b => a.sshiftRight (b.toNat % 32)),
        (Instr.slt, fun a b => if a.toInt < b.toInt then 1#32 else 0#32),
        (Instr.sltu, fun a b => if a.toNat < b.toNat then 1#32 else 0#32)] :
      List ((RegIdx → RegIdx → RegIdx → Instr) × (Word → Word → Word))),
    ∀ (s : State) (rd rs1 rs2 : RegIdx),
      (∃ t, exec (p.1 rd rs1 rs2) s = .next t ∧
          SetsOnlyRegister s t rd (p.2 (s.readReg rs1) (s.readReg rs2))) ∧
        ∀ w : Word, FreeRunning s → s.fetch = some w → decode w = .hit (p.1 rd rs1 rs2) →
          ∃ t, step s = .next t ∧ t.pc = s.pc + 4#32 ∧ SameMemory s t ∧ t.raised = s.raised ∧
            ∀ r : RegIdx, t.readReg r =
              if r = rd ∧ rd ≠ 0#5 then p.2 (s.readReg rs1) (s.readReg rs2) else s.readReg r

/-- 41_alu_register.md R121, R122, R131: ADD and SUB wrap modulo 2^32, in the unsigned and in the signed reading. -/
def Obligations.AddAndSubWrapInBothReadings : Prop :=
  ∀ (s : State) (rd rs1 rs2 : RegIdx),
    (∃ t v, exec (.add rd rs1 rs2) s = .next t ∧ SetsOnlyRegister s t rd v ∧
        v.toNat = ((s.readReg rs1).toNat + (s.readReg rs2).toNat) % 2 ^ 32 ∧
        v.toInt = ((s.readReg rs1).toInt + (s.readReg rs2).toInt).bmod (2 ^ 32)) ∧
      ∃ t v, exec (.sub rd rs1 rs2) s = .next t ∧ SetsOnlyRegister s t rd v ∧
        (v.toNat : Int) = ((s.readReg rs1).toNat - (s.readReg rs2).toNat : Int) % 2 ^ 32 ∧
        v.toInt = ((s.readReg rs1).toInt - (s.readReg rs2).toInt).bmod (2 ^ 32)

/-- 41_alu_register.md R123 to R125: AND, OR and XOR, bit by bit. -/
def Obligations.BitwiseRegisterResults : Prop :=
  ∀ (s : State) (rd rs1 rs2 : RegIdx),
    (∃ t v, exec (.and rd rs1 rs2) s = .next t ∧ SetsOnlyRegister s t rd v ∧
        ∀ k, v.getLsbD k = ((s.readReg rs1).getLsbD k && (s.readReg rs2).getLsbD k)) ∧
      (∃ t v, exec (.or rd rs1 rs2) s = .next t ∧ SetsOnlyRegister s t rd v ∧
        ∀ k, v.getLsbD k = ((s.readReg rs1).getLsbD k || (s.readReg rs2).getLsbD k)) ∧
      ∃ t v, exec (.xor rd rs1 rs2) s = .next t ∧ SetsOnlyRegister s t rd v ∧
        ∀ k, v.getLsbD k = xor ((s.readReg rs1).getLsbD k) ((s.readReg rs2).getLsbD k)

/-- 41_alu_register.md R126 to R128: SLL, SRL and SRA shift by the low 5 bits of `x[rs2]`: multiplication modulo
2^32, division rounding down of the unsigned value, division rounding down of the signed value. -/
def Obligations.RegisterShiftsUseLowFiveBits : Prop :=
  ∀ (s : State) (rd rs1 rs2 : RegIdx),
    (∃ t v, exec (.sll rd rs1 rs2) s = .next t ∧ SetsOnlyRegister s t rd v ∧
        v.toNat = (s.readReg rs1).toNat * 2 ^ ((s.readReg rs2).toNat % 32) % 2 ^ 32) ∧
      (∃ t v, exec (.srl rd rs1 rs2) s = .next t ∧ SetsOnlyRegister s t rd v ∧
        v.toNat = (s.readReg rs1).toNat / 2 ^ ((s.readReg rs2).toNat % 32)) ∧
      ∃ t v, exec (.sra rd rs1 rs2) s = .next t ∧ SetsOnlyRegister s t rd v ∧
        v.toInt = (s.readReg rs1).toInt / 2 ^ ((s.readReg rs2).toNat % 32)

/-- 41_alu_register.md R129, R130: SLT compares two's-complement values, SLTU unsigned ones; the result is 1 or 0. -/
def Obligations.RegisterComparesSetOneOrZero : Prop :=
  ∀ (s : State) (rd rs1 rs2 : RegIdx),
    (∃ t, exec (.slt rd rs1 rs2) s = .next t ∧
        SetsOnlyRegister s t rd (if (s.readReg rs1).toInt < (s.readReg rs2).toInt then 1#32 else 0#32)) ∧
      ∃ t, exec (.sltu rd rs1 rs2) s = .next t ∧
        SetsOnlyRegister s t rd (if (s.readReg rs1).toNat < (s.readReg rs2).toNat then 1#32 else 0#32)

/-! ## Register-immediate ALU -/

/-- 42_alu_immediate.md R141 to R144: ADDI, ANDI, ORI and XORI use the 12-bit field as a signed value. That sign
extension is the spec's own choice (92_eei_decisions.md D6, log 12). -/
def Obligations.ImmediateArithmeticSignExtends : Prop :=
  ∀ (s : State) (rd rs1 : RegIdx) (imm : BitVec 12),
    (∃ t v, exec (.addi rd rs1 imm) s = .next t ∧ SetsOnlyRegister s t rd v ∧
        v.toInt = ((s.readReg rs1).toInt + imm.toInt).bmod (2 ^ 32)) ∧
      (∃ t v, exec (.andi rd rs1 imm) s = .next t ∧ SetsOnlyRegister s t rd v ∧
        ∀ k < 32, v.getLsbD k = ((s.readReg rs1).getLsbD k && imm.getLsbD (min k 11))) ∧
      (∃ t v, exec (.ori rd rs1 imm) s = .next t ∧ SetsOnlyRegister s t rd v ∧
        ∀ k < 32, v.getLsbD k = ((s.readReg rs1).getLsbD k || imm.getLsbD (min k 11))) ∧
      ∃ t v, exec (.xori rd rs1 imm) s = .next t ∧ SetsOnlyRegister s t rd v ∧
        ∀ k < 32, v.getLsbD k = xor ((s.readReg rs1).getLsbD k) (imm.getLsbD (min k 11))

/-- 42_alu_immediate.md R145, R146: SLTI compares signed values; SLTIU compares unsigned ones, with the field
zero-extended under `SLTIU_IMM_EXT = ZERO` and sign-extended under `SIGN` (92_eei_decisions.md D7, an open point: the
statement holds for both). -/
def Obligations.ImmediateComparesFollowConfiguration : Prop :=
  ∀ (s : State) (rd rs1 : RegIdx) (imm : BitVec 12),
    (∃ t, exec (.slti rd rs1 imm) s = .next t ∧
        SetsOnlyRegister s t rd (if (s.readReg rs1).toInt < imm.toInt then 1#32 else 0#32)) ∧
      (s.cfg.sltiuImmExt = .zero → ∃ t, exec (.sltiu rd rs1 imm) s = .next t ∧
        SetsOnlyRegister s t rd (if (s.readReg rs1).toNat < imm.toNat then 1#32 else 0#32)) ∧
      (s.cfg.sltiuImmExt = .sign → ∃ t, exec (.sltiu rd rs1 imm) s = .next t ∧
        SetsOnlyRegister s t rd
          (if (s.readReg rs1).toNat < (if imm.toNat < 2048 then imm.toNat else imm.toNat + (2 ^ 32 - 4096))
           then 1#32 else 0#32))

/-- 42_alu_immediate.md R147 to R149: the shift-immediates, for every shift amount. -/
def Obligations.ImmediateShiftResults : Prop :=
  ∀ (s : State) (rd rs1 : RegIdx) (shamt : BitVec 5),
    (∃ t v, exec (.slli rd rs1 shamt) s = .next t ∧ SetsOnlyRegister s t rd v ∧
        v.toNat = (s.readReg rs1).toNat * 2 ^ shamt.toNat % 2 ^ 32) ∧
      (∃ t v, exec (.srli rd rs1 shamt) s = .next t ∧ SetsOnlyRegister s t rd v ∧
        v.toNat = (s.readReg rs1).toNat / 2 ^ shamt.toNat) ∧
      ∃ t v, exec (.srai rd rs1 shamt) s = .next t ∧ SetsOnlyRegister s t rd v ∧
        v.toInt = (s.readReg rs1).toInt / 2 ^ shamt.toNat

/-- 00_scope.md R12: sign and zero extension, bit by bit, for every width from 1 to 32. -/
def Obligations.ExtensionCopiesOrClearsHighBits : Prop :=
  ∀ (n : Nat) (v : BitVec n), 0 < n → n ≤ 32 →
    ∀ k < 32, (sext v).getLsbD k = (if k < n then v.getLsbD k else v.getLsbD (n - 1)) ∧
      (zext v).getLsbD k = (if k < n then v.getLsbD k else false)

/-! ## Loads and stores -/

/-- 43_load_store.md R160: the effective address is base plus signed displacement modulo 2^32; no load or store
changes a register but a load's destination, raises a condition, redirects or moves `pc`; no load changes memory, and no
store a byte outside the word that contains the address (20_memory.md R63); an address out of range reads 0 and writes
nothing; the step then leaves `pc + 4`. -/
def Obligations.LoadsAndStoresUseBaseDisplacement : Prop :=
  (∀ (s : State) (rs1 : RegIdx) (imm : BitVec 12),
      (s.ea rs1 imm).toInt = ((s.readReg rs1).toInt + imm.toInt).bmod (2 ^ 32)) ∧
    (∀ c ∈ [Instr.lb, Instr.lh, Instr.lw, Instr.lbu, Instr.lhu], ∀ (s t : State) (rd rs1 : RegIdx) (imm : BitVec 12),
      exec (c rd rs1 imm) s = .next t →
        (∀ r : RegIdx, r ≠ rd → t.readReg r = s.readReg r) ∧ SamePc s t ∧ SameMemory s t ∧ SameControl s t ∧
          (s.inRange (s.ea rs1 imm) = false → t.readReg rd = 0#32)) ∧
    (∀ c ∈ [Instr.sb, Instr.sh, Instr.sw], ∀ (s t : State) (rs2 rs1 : RegIdx) (imm : BitVec 12),
      exec (c rs2 rs1 imm) s = .next t →
        SameRegs s t ∧ SamePc s t ∧ SameControl s t ∧
          (∀ b : Word, wordIndex b ≠ wordIndex (s.ea rs1 imm) → t.memRead1 b = s.memRead1 b) ∧ (s.inRange (s.ea rs1 imm) = false → t = s)) ∧
    ∀ (c : RegIdx → RegIdx → BitVec 12 → Instr) (s t : State) (a b : RegIdx) (imm : BitVec 12) (w : Word),
      c ∈ [Instr.lb, Instr.lh, Instr.lw, Instr.lbu, Instr.lhu, Instr.sb, Instr.sh, Instr.sw] →
      FreeRunning s → s.fetch = some w → decode w = .hit (c a b imm) → step s = .next t →
        t.pc = s.pc + 4#32 ∧ t.raised = s.raised

/-- 43_load_store.md R161, R164: LB and LBU load the byte at the effective address, sign- and zero-extended. -/
def Obligations.ByteLoadsExtendTheByte : Prop :=
  ∀ (s : State) (rd rs1 : RegIdx) (imm : BitVec 12),
    (∃ t v, exec (.lb rd rs1 imm) s = .next t ∧ SetsOnlyRegister s t rd v ∧
        v.toInt = (s.memRead1 (s.ea rs1 imm)).toInt) ∧
      ∃ t v, exec (.lbu rd rs1 imm) s = .next t ∧ SetsOnlyRegister s t rd v ∧
        v.toNat = (s.memRead1 (s.ea rs1 imm)).toNat

/-- 43_load_store.md R162, R165, 20_memory.md R56: where the access has a step, LH and LHU load the byte at the
effective address and, above it, the next byte of the same word (zero at offset 3), sign- and zero-extended. The
reading of offsets 1 and 3 is the spec's own (92_eei_decisions.md D12), and so is log 8. -/
def Obligations.HalfwordLoadsExtendTwoBytesOfOneWord : Prop :=
  ∀ (s : State) (rd rs1 : RegIdx) (imm : BitVec 12), ¬ HalfwordStuck s (s.ea rs1 imm) →
    let a := s.ea rs1 imm
    let h : Half := (if lane a = 3 then 0#8 else s.memRead1 (a + 1#32)) ++ s.memRead1 a
    (∃ t v, exec (.lh rd rs1 imm) s = .next t ∧ SetsOnlyRegister s t rd v ∧ v.toInt = h.toInt) ∧
      ∃ t v, exec (.lhu rd rs1 imm) s = .next t ∧ SetsOnlyRegister s t rd v ∧ v.toNat = h.toNat

/-- 43_load_store.md R163, 20_memory.md R58 (an inference the spec marks as its own): LW loads the whole word that
contains the effective address, unrotated: each of its byte lanes is the byte at that lane's address. -/
def Obligations.WordLoadIsWholeAndUnrotated : Prop :=
  ∀ (s : State) (rd rs1 : RegIdx) (imm : BitVec 12),
    ∃ t v, exec (.lw rd rs1 imm) s = .next t ∧ SetsOnlyRegister s t rd v ∧
      ∀ b : Word, wordIndex b = wordIndex (s.ea rs1 imm) → byteLane v (lane b) = s.memRead1 b

/-- 43_load_store.md R166, 20_memory.md R60: SB stores the low byte of `x[rs2]` at the effective address and no
other byte; out of range it stores nothing (an inference the spec marks as its own). -/
def Obligations.ByteStoreChangesOneByte : Prop :=
  ∀ (s : State) (rs2 rs1 : RegIdx) (imm : BitVec 12),
    ∃ t, exec (.sb rs2 rs1 imm) s = .next t ∧
      SetsOnlyMemory s t fun b =>
        if s.inRange (s.ea rs1 imm) = true ∧ b = s.ea rs1 imm then byteLane (s.readReg rs2) 0 else s.memRead1 b

/-- 43_load_store.md R167, 20_memory.md R61: where the access has a step, SH stores the low two bytes of `x[rs2]` at
the effective address and the next byte of the same word, at offset 3 the low byte only. The reading of offsets 1
and 3 is the spec's own (92_eei_decisions.md D12), and so is log 8. -/
def Obligations.HalfwordStoreStaysInItsWord : Prop :=
  ∀ (s : State) (rs2 rs1 : RegIdx) (imm : BitVec 12), ¬ HalfwordStuck s (s.ea rs1 imm) →
    ∃ t, exec (.sh rs2 rs1 imm) s = .next t ∧
      SetsOnlyMemory s t fun b =>
        if s.inRange (s.ea rs1 imm) = true ∧ b = s.ea rs1 imm then byteLane (s.readReg rs2) 0
        else if s.inRange (s.ea rs1 imm) = true ∧ lane (s.ea rs1 imm) ≠ 3 ∧ b = s.ea rs1 imm + 1#32 then
          byteLane (s.readReg rs2) 1
        else s.memRead1 b

/-- 20_memory.md R59: a word write replaces the whole word that contains the address, unrotated, and nothing else;
out of range it does nothing; what was written is read back. SW is that write (43_load_store.md R168). -/
def Obligations.WordStoreReplacesTheWord : Prop :=
  (∀ (s : State) (a v : Word),
      SetsOnlyMemory s (s.memWrite4 a v)
          (fun b => if s.inRange a = true ∧ wordIndex b = wordIndex a then byteLane v (lane b) else s.memRead1 b) ∧
        (s.inRange a = false → s.memWrite4 a v = s) ∧
        (s.inRange a = true → (s.memWrite4 a v).memRead4 a = v)) ∧
    ∀ (s : State) (rs2 rs1 : RegIdx) (imm : BitVec 12),
      ∃ t, exec (.sw rs2 rs1 imm) s = .next t ∧ t = s.memWrite4 (s.ea rs1 imm) (s.readReg rs2)

/-- 20_memory.md R56, R61: under `MISALIGNED_SUBWORD = STUCK` an in-range halfword access at byte offset 3 has no
step (92_eei_decisions.md D12, the spec's own choice). -/
def Obligations.HalfwordAtOffsetThreeIsStuck : Prop :=
  ∀ (s : State) (r rs1 : RegIdx) (imm : BitVec 12), HalfwordStuck s (s.ea rs1 imm) →
    exec (.lh r rs1 imm) s = .fault .halfwordStuck ∧ exec (.lhu r rs1 imm) s = .fault .halfwordStuck ∧
      exec (.sh r rs1 imm) s = .fault .halfwordStuck

/-- 20_memory.md R53: the word read is the one at index `addr / 4`, whatever the low two bits, and 0 out of range. -/
def Obligations.WordReadUsesTheWordIndex : Prop :=
  ∀ (s : State) (a : Word),
    (a.toNat / 4 < s.cfg.memWords →
        s.readWord a = s.mem.readWord s.cfg.memFill (a.toNat / 4) ∧
          ∀ b : Word, b.toNat / 4 = a.toNat / 4 → s.readWord b = s.readWord a ∧ byteLane (s.readWord a) (lane b) = s.memRead1 b) ∧
      (s.cfg.memWords ≤ a.toNat / 4 → s.readWord a = 0#32)

/-- 20_memory.md R54, R67 (inferences the spec marks as its own): the mixed-width view of a stored word, and a load
of any width returns what the last store of that width wrote. -/
def Obligations.LoadsReturnWhatStoresWrote : Prop :=
  (∀ (s : State) (a v : Word), s.inRange a = true → lane a = 0 →
      (∀ k < 4, (s.memWrite4 a v).memRead1 (a + BitVec.ofNat 32 k) = bits v (8 * k) 8) ∧
        (s.memWrite4 a v).memRead2 a = .ok (bits v 0 16) ∧
        (s.memWrite4 a v).memRead2 (a + 2#32) = .ok (bits v 16 16)) ∧
    (∀ (s t u : State) (rs2 rs1 rd : RegIdx) (imm : BitVec 12), s.inRange (s.ea rs1 imm) = true → rd ≠ 0#5 →
      exec (.sw rs2 rs1 imm) s = .next t → exec (.lw rd rs1 imm) t = .next u → u.readReg rd = s.readReg rs2) ∧
    (∀ (s t u : State) (rs2 rs1 rd : RegIdx) (imm : BitVec 12), s.inRange (s.ea rs1 imm) = true → rd ≠ 0#5 →
      exec (.sb rs2 rs1 imm) s = .next t → exec (.lbu rd rs1 imm) t = .next u →
        (u.readReg rd).toNat = (s.readReg rs2).toNat % 2 ^ 8) ∧
    ∀ (s t u : State) (rs2 rs1 rd : RegIdx) (imm : BitVec 12), s.inRange (s.ea rs1 imm) = true →
      lane (s.ea rs1 imm) ≠ 3 → rd ≠ 0#5 → exec (.sh rs2 rs1 imm) s = .next t → exec (.lhu rd rs1 imm) t = .next u →
        (u.readReg rd).toNat = (s.readReg rs2).toNat % 2 ^ 16

/-! ## Control transfer -/

/-- 44_control_transfer.md R180: each branch takes its condition on the two registers; on true it only redirects
`pc` to `pc + sext_13(imm_B)`, exactly, with no further `+ 4`; on false it does nothing and the step adds 4. -/
def Obligations.BranchesRedirectOnTheirCondition : Prop :=
  ∀ p ∈ ([(Instr.beq, fun a b => a = b), (Instr.bne, fun a b => a ≠ b),
        (Instr.blt, fun a b => a.toInt < b.toInt), (Instr.bge, fun a b => ¬ a.toInt < b.toInt),
        (Instr.bltu, fun a b => a.toNat < b.toNat), (Instr.bgeu, fun a b => ¬ a.toNat < b.toNat)] :
      List ((RegIdx → RegIdx → BitVec 13 → Instr) × (Word → Word → Prop))),
    ∀ (s : State) (rs1 rs2 : RegIdx) (off : BitVec 13),
      (p.2 (s.readReg rs1) (s.readReg rs2) →
          (∃ t, exec (p.1 rs1 rs2 off) s = .next t ∧ JumpsOnly s t (s.pc + off.signExtend 32)) ∧
          ∀ w, FreeRunning s → s.fetch = some w → decode w = .hit (p.1 rs1 rs2 off) →
            ∃ t, step s = .next t ∧ t.pc = s.pc + off.signExtend 32 ∧ SameRegs s t ∧ SameMemory s t ∧ t.raised = s.raised) ∧
        (¬ p.2 (s.readReg rs1) (s.readReg rs2) →
          exec (p.1 rs1 rs2 off) s = .next s ∧
          ∀ w, FreeRunning s → s.fetch = some w → decode w = .hit (p.1 rs1 rs2 off) →
            ∃ t, step s = .next t ∧ t.pc = s.pc + 4#32 ∧ SameRegs s t ∧ SameMemory s t ∧ t.raised = s.raised)

/-- 44_control_transfer.md R187: JAL jumps to `pc + sext_21(imm_J)` and links `pc + 4`, modulo 2^32. -/
def Obligations.JalJumpsAndLinks : Prop :=
  ∀ (s : State) (rd : RegIdx) (off : BitVec 21),
    ∃ t target, exec (.jal rd off) s = .next t ∧ JumpsAndLinks s t target rd (s.pc + 4#32) ∧
      target.toInt = (s.pc.toInt + off.toInt).bmod (2 ^ 32)

/-- 44_control_transfer.md R188: JALR jumps to the old `x[rs1]` plus the signed immediate, with bit 0 cleared exactly
under `JALR_CLEARS_BIT0`, and links `pc + 4`. The sign extension (D6), the read order (D9) and the policy (D8) are the
spec's own choices. -/
def Obligations.JalrUsesTheOldBaseAndThePolicy : Prop :=
  ∀ (s : State) (rd rs1 : RegIdx) (imm : BitVec 12),
    let sum := (s.readReg rs1).toInt + imm.toInt
    ∃ t target, exec (.jalr rd rs1 imm) s = .next t ∧ JumpsAndLinks s t target rd (s.pc + 4#32) ∧
      (s.cfg.jalrClearsBit0 = true → (target.toNat : Int) = (sum - sum % 2) % 2 ^ 32) ∧
      (s.cfg.jalrClearsBit0 = false → (target.toNat : Int) = sum % 2 ^ 32)

/-- 45_upper_immediate.md R200, R201: LUI writes the 20-bit immediate times 4096; AUIPC adds `pc` to that, modulo
2^32. -/
def Obligations.UpperImmediateResults : Prop :=
  ∀ (s : State) (rd : RegIdx) (imm : BitVec 20),
    (∃ t v, exec (.lui rd imm) s = .next t ∧ SetsOnlyRegister s t rd v ∧ v.toNat = imm.toNat * 4096) ∧
      ∃ t v, exec (.auipc rd imm) s = .next t ∧ SetsOnlyRegister s t rd v ∧
        v.toNat = (s.pc.toNat + imm.toNat * 4096) % 2 ^ 32

/-- 30_encoding.md R92: the U immediate is shifted once: the operand LUI and AUIPC use is `inst & 0xFFFFF000`. -/
def Obligations.UpperImmediateIsShiftedOnce : Prop :=
  ∀ w : Word, (Fields.ofWord w).immU = bits w 12 20 ∧ upperImm (Fields.ofWord w).immU = w &&& 0xFFFFF000#32 ∧
    ∀ (s : State) (rd : RegIdx) (imm : BitVec 20),
      (decode w = .hit (.lui rd imm) →
          ∃ t, exec (.lui rd imm) s = .next t ∧ SetsOnlyRegister s t rd (w &&& 0xFFFFF000#32)) ∧
        (decode w = .hit (.auipc rd imm) →
          ∃ t, exec (.auipc rd imm) s = .next t ∧ SetsOnlyRegister s t rd (s.pc + (w &&& 0xFFFFF000#32)))

/-! ## FENCE and system instructions -/

/-- 46_system.md R210, 30_encoding.md R102: FENCE changes nothing, and every word with its opcode and funct3 000 is
one, whatever its other bits; its step changes only `pc` (beside the trace and the cleared miss count). The opcode
number is general knowledge (log 12). -/
def Obligations.FenceChangesOnlyPc : Prop :=
  (∀ (rd rs1 : RegIdx) (imm : BitVec 12) (s : State), exec (.fence rd rs1 imm) s = .next s) ∧
    ∀ (w : Word) (s : State), bits w 0 7 = 0x0F#7 → bits w 12 3 = 0#3 → FreeRunning s → s.fetch = some w →
      ∃ i, i.op = .fence ∧ decode w = .hit i ∧
        step s = .next { s with pc := s.pc + 4#32, redirect := false, missCount := 0, traceOut := s.traceOut ++ [i] }

/-- 46_system.md R211: ECALL halts under `ECALL_ACTION = HALT`, with `pc` kept at the ECALL, and does nothing but
advance under `NOP` (92_eei_decisions.md D13, an open point: the statement holds for both). Every word with its opcode,
funct3 and funct12 is one. -/
def Obligations.EcallFollowsItsAction : Prop :=
  (∀ (rd rs1 : RegIdx) (s : State),
      (s.cfg.ecallAction = .halt → exec (.ecall rd rs1) s = .next { s with runState := .halted .ecall }) ∧
        (s.cfg.ecallAction = .nop → exec (.ecall rd rs1) s = .next s)) ∧
    ∀ (w : Word) (s : State), bits w 0 7 = 0x73#7 → bits w 12 3 = 0#3 → bits w 20 12 = 0#12 → FreeRunning s →
      s.fetch = some w →
      ∃ i, i.op = .ecall ∧ decode w = .hit i ∧
        (s.cfg.ecallAction = .halt → step s = .next
            { s with runState := .halted .ecall, redirect := false, missCount := 0, traceOut := s.traceOut ++ [i] }) ∧
        (s.cfg.ecallAction = .nop → step s = .next
            { s with pc := s.pc + 4#32, redirect := false, missCount := 0, traceOut := s.traceOut ++ [i] })

/-- 46_system.md R212: EBREAK toggles step mode and nothing else, and its step advances `pc` (92_eei_decisions.md
D14, the spec's own choice): a free-running core is then suspended at `pc + 4`. -/
def Obligations.EbreakTogglesStepMode : Prop :=
  (∀ (rd rs1 : RegIdx) (s : State), exec (.ebreak rd rs1) s = .next { s with stepMode := !s.stepMode }) ∧
    ∀ (w : Word) (s : State), bits w 0 7 = 0x73#7 → bits w 12 3 = 0#3 → bits w 20 12 = 1#12 → FreeRunning s →
      s.fetch = some w →
      ∃ i, i.op = .ebreak ∧ decode w = .hit i ∧
        step s = .next { s with stepMode := true, pc := s.pc + 4#32, redirect := false, missCount := 0,
                                traceOut := s.traceOut ++ [i] }

/-! ## Encoding -/

/-- 30_encoding.md R83 to R88, R99: decoding the word of a well-formed instruction gives the instruction back, every
operand at every value the encoding admits. -/
def Obligations.DecodeOfEncodeIsTheInstruction : Prop :=
  ∀ i : Instr, i.wellFormed = true → decode (encode i) = .hit i

/-- 30_encoding.md R96, R100: a word that decodes to an instruction is that instruction's word, and the instruction is
well-formed: no bit of a word is dropped or read twice (for the bits R97 ignores: log 11). -/
def Obligations.EncodeOfDecodeIsTheWord : Prop :=
  ∀ (w : Word) (i : Instr), decode w = .hit i → i.wellFormed = true ∧ encode i = w

/-- 30_encoding.md R100, R101 (inferences the spec marks as its own): a word is instruction `m` exactly when
`inst & mask(m) = match(m)`, with the masks and matches of spec/opcode_table.json, and for at most one `m`. -/
def Obligations.DecodeAgreesWithMaskAndMatch : Prop :=
  (∀ (w : Word) (o : Op), (∃ i, decode w = .hit i ∧ i.op = o) ↔ w &&& o.maskWord = o.matchWord) ∧
    ∀ (w : Word) (o o' : Op), w &&& o.maskWord = o.matchWord → w &&& o'.maskWord = o'.matchWord → o = o'

/-- 30_encoding.md R104, 60_exceptions.md R221 (92_eei_decisions.md D27): a word misses exactly when no entry matches
it, and the miss records its raw fields. -/
def Obligations.MissesRecordTheRawFields : Prop :=
  ∀ (w : Word) (info : MissInfo), decode w = .instructionNotFound info ↔
    (∀ o : Op, w &&& o.maskWord ≠ o.matchWord) ∧
      info = ⟨w.extractLsb' 0 7, w.extractLsb' 12 3, w.extractLsb' 25 7, w.extractLsb' 20 12⟩

/-- 30_encoding.md R85, R86, R88, R91, R93: the S, SB and UJ immediates by the source's shift-and-or formulas, and
their ranges in steps of 2. -/
def Obligations.ImmediatesFollowTheSourceFormulas : Prop :=
  ∀ w : Word,
    (Fields.ofWord w).immS.setWidth 32 = ((w >>> 25) <<< 5 ||| (w >>> 7 &&& 0x1F#32)) ∧
      (Fields.ofWord w).immB.setWidth 32 =
        ((w >>> 31) <<< 12 ||| (w >>> 25 &&& 0x3F#32) <<< 5 ||| (w >>> 8 &&& 0xF#32) <<< 1
          ||| (w >>> 7 &&& 1#32) <<< 11) ∧
      (Fields.ofWord w).immJ.setWidth 32 =
        ((w >>> 31) <<< 20 ||| (w >>> 21 &&& 0x3FF#32) <<< 1 ||| (w >>> 20 &&& 1#32) <<< 11
          ||| (w >>> 12 &&& 0xFF#32) <<< 12) ∧
      (-4096 ≤ (Fields.ofWord w).immB.toInt ∧ (Fields.ofWord w).immB.toInt ≤ 4094 ∧
        (Fields.ofWord w).immB.toInt % 2 = 0) ∧
      (-1048576 ≤ (Fields.ofWord w).immJ.toInt ∧ (Fields.ofWord w).immJ.toInt ≤ 1048574 ∧
        (Fields.ofWord w).immJ.toInt % 2 = 0)

/-- A sanity statement: the words of 95_test_vectors.md decode to the instructions they stand for, one or more of
every format and family. -/
def Obligations.SampleWordsDecode : Prop :=
  decode 0x00308133#32 = .hit (.add 2#5 1#5 3#5) ∧ decode 0x4020D1B3#32 = .hit (.sra 3#5 1#5 2#5) ∧
    decode 0xFFF08193#32 = .hit (.addi 3#5 1#5 0xFFF#12) ∧ decode 0x4040D193#32 = .hit (.srai 3#5 1#5 4#5) ∧
    decode 0x00309183#32 = .hit (.lh 3#5 1#5 3#12) ∧ decode 0xFE20AE23#32 = .hit (.sw 2#5 1#5 0xFFC#12) ∧
    decode 0xFE209CE3#32 = .hit (.bne 1#5 2#5 0x1FF8#13) ∧ decode 0x001000EF#32 = .hit (.jal 1#5 0x800#21) ∧
    decode 0x003280E7#32 = .hit (.jalr 1#5 5#5 3#12) ∧ decode 0xFFFFF1B7#32 = .hit (.lui 3#5 0xFFFFF#20) ∧
    decode 0x0FF0000F#32 = .hit (.fence 0#5 0#5 0x0FF#12) ∧ decode 0x00100073#32 = .hit (.ebreak 0#5 0#5) ∧
    decode 0x00000000#32 = .instructionNotFound ⟨0#7, 0#3, 0#7, 0#12⟩

/-! ## The fetch-execute step -/

/-- 10_state.md R30: one step of a core that is running and not suspended. Out of range it halts; a word that misses
is raised, counted, then skipped or halted on; a word that decodes to an instruction runs it from the state with
`redirect` clear, then clears the miss count, emits the trace and adds 4 to `pc` unless the core halted or the
instruction redirected. An instruction with no step gives the step none; none is refused. The miss policy in the second clause is that
of 60_exceptions.md R222, the spec's own choice (92_eei_decisions.md D15), and the condition raised in the first that of
R223. That the step ends with `redirect` clear, also after a jump, is the model's choice (log 9). -/
def Obligations.StepRunsTheDecodedInstruction : Prop :=
  ∀ s : State, FreeRunning s →
    (s.cfg.memWords ≤ s.pc.toNat / 4 →
        step s = .next { s with runState := .halted .outOfBoundsFetch,
                                raised := s.raised ++ [.outOfBoundsFetch s.pc] }) ∧
      (s.pc.toNat / 4 < s.cfg.memWords → ∀ info, decode (s.readWord s.pc) = .instructionNotFound info →
        step s = .next
          (if 0 < s.cfg.missHaltLimit ∧ s.cfg.missHaltLimit ≤ s.missCount + 1 then
            { s with redirect := false, raised := s.raised ++ [.instructionNotFound info],
                     missCount := s.missCount + 1, runState := .halted .missLimit }
          else
            { s with redirect := false, raised := s.raised ++ [.instructionNotFound info],
                     missCount := s.missCount + 1, pc := s.pc + 4#32 })) ∧
      (s.pc.toNat / 4 < s.cfg.memWords → ∀ i, decode (s.readWord s.pc) = .hit i →
        (∀ u, exec i { s with redirect := false } = .next u →
            step s = .next { u with missCount := 0, traceOut := u.traceOut ++ [i], redirect := false,
                                    pc := if u.runState = .running ∧ u.redirect = false then u.pc + 4#32 else u.pc }) ∧
          (∀ f, exec i { s with redirect := false } = .fault f → step s = .fault f) ∧
          ∀ r, exec i { s with redirect := false } ≠ .refused r)

/-- 10_state.md R31: a step halts with `OutOfBoundsFetch` exactly when the word index of `pc` is at or past the
capacity; it fetches nothing and keeps `pc`, registers and memory. -/
def Obligations.OutOfBoundsFetchHalts : Prop :=
  ∀ s : State, FreeRunning s →
    ((∃ t, step s = .next t ∧ t.runState = .halted .outOfBoundsFetch) ↔ s.cfg.memWords ≤ s.pc.toNat / 4) ∧
      (s.cfg.memWords ≤ s.pc.toNat / 4 → s.fetch = none ∧
        ∃ t, step s = .next t ∧ t.pc = s.pc ∧ t.mem = s.mem ∧ SameRegs s t ∧ t.traceOut = s.traceOut)

/-- 20_memory.md R57: after the in-range check the fetch reads the whole word containing `pc`, unrotated, its least
significant byte at the lowest address; the low two bits of `pc` are ignored. -/
def Obligations.FetchReadsTheWholeWord : Prop :=
  ∀ s : State,
    (s.cfg.memWords ≤ s.pc.toNat / 4 → s.fetch = none) ∧
      (s.pc.toNat / 4 < s.cfg.memWords → ∃ w, s.fetch = some w ∧
        (∀ b : Word, wordIndex b = wordIndex s.pc → byteLane w (lane b) = s.memRead1 b) ∧
        ∀ p : Word, wordIndex p = wordIndex s.pc → ({ s with pc := p } : State).fetch = some w)

/-- 10_state.md R32: an instruction that is no branch or jump does not change `pc` itself and does not redirect; where
an executed instruction did not redirect and the core still runs, the step leaves `pc + 4` modulo 2^32. -/
def Obligations.SequentialInstructionsAdvanceByFour : Prop :=
  (∀ (i : Instr) (s u : State), i.isControlTransfer = false → exec i s = .next u →
      u.pc = s.pc ∧ u.redirect = s.redirect) ∧
    ∀ (s u : State) (w : Word) (i : Instr), FreeRunning s → s.fetch = some w → decode w = .hit i →
      exec i { s with redirect := false } = .next u → u.redirect = false → u.runState = .running →
        ∃ t, step s = .next t ∧ t.pc.toNat = (s.pc.toNat + 4) % 2 ^ 32

/-- 60_exceptions.md R221, R222 (92_eei_decisions.md D15, D27, the spec's own choices): a miss changes no register and no
memory and emits no trace; it is raised with the raw fields and counted; it halts exactly when a limit is set and
reached, with `pc` kept, and otherwise `pc` advances. -/
def Obligations.MissIsSkippedOrHaltsAtTheLimit : Prop :=
  ∀ (s : State) (w : Word) (info : MissInfo), FreeRunning s → s.fetch = some w →
    decode w = .instructionNotFound info →
    ∃ t, step s = .next t ∧ SameRegs s t ∧ t.mem = s.mem ∧ t.traceOut = s.traceOut ∧
      t.raised = s.raised ++ [.instructionNotFound info] ∧ t.missCount = s.missCount + 1 ∧
      (0 < s.cfg.missHaltLimit ∧ s.cfg.missHaltLimit ≤ s.missCount + 1 →
        t.runState = .halted .missLimit ∧ t.pc = s.pc) ∧
      (¬ (0 < s.cfg.missHaltLimit ∧ s.cfg.missHaltLimit ≤ s.missCount + 1) →
        t.runState = .running ∧ t.pc = s.pc + 4#32)

/-- 60_exceptions.md R238 (92_eei_decisions.md D22): a step emits one trace string exactly where it executes an
instruction, of a free core or on the host's command `step` (log 7), and none for a miss, an out-of-bounds fetch or any
other host command; the string is the upper-case mnemonic, a space, the operand text and a line end. The operand text is
an open constant, and State holds the instructions (log 10). -/
def Obligations.OneTraceStringPerExecutedInstruction : Prop :=
  (∀ s t : State, step s = .next t →
      t.traceOut = s.traceOut ∨
        TakesStep s ∧ ∃ i, FetchesInstr s i ∧ t.traceOut = s.traceOut ++ [i] ∧
          t.traceStrings = s.traceStrings ++ [i.op.mnemonic ++ " " ++ Config.traceOperands i ++ "\n"]) ∧
    ∀ (s t : State) (i : Instr), TakesStep s → FetchesInstr s i → step s = .next t → t.traceOut = s.traceOut ++ [i]

/-! ## Halting, control state, conditions -/

/-- 10_state.md R26 (92_eei_decisions.md D16): a halted core stays as it is, for any number of steps. That a halted
core's step answers the same state, rather than none, is the model's choice (log 5). -/
def Obligations.HaltedIsTerminal : Prop :=
  ∀ (n : Nat) (s : State) (r : HaltReason), s.runState = .halted r → Host.Core.run core n s = .next s

/-- 10_state.md R26 (92_eei_decisions.md D29, the spec's own choice): no halt advances `pc`, and none changes a
register or memory. -/
def Obligations.HaltKeepsPcRegistersAndMemory : Prop :=
  ∀ s t : State, s.runState = .running → step s = .next t → t.runState ≠ .running →
    t.pc = s.pc ∧ SameRegs s t ∧ t.mem = s.mem

/-- 10_state.md R29, R26 (in part the spec's own choices: 92_eei_decisions.md D13, D15 to D17): the configuration and the
debug bit never change; step mode changes only by an executed EBREAK, which toggles it, or by `continue`, which clears
it; the miss count changes only by a miss, which adds 1, an executed instruction or `reset`, which clear it; the run
state changes only from `Running`, by an out-of-bounds fetch, an ECALL under `HALT`, a miss that reaches the limit, or
`exit`. The command queue is the model's own field (log 7). -/
def Obligations.ControlStateChangesOnlyByNamedEvents : Prop :=
  ∀ s t : State, step s = .next t →
    t.cfg = s.cfg ∧ t.debugLog = s.debugLog ∧
      (t.stepMode ≠ s.stepMode →
        (TakesStep s ∧ ∃ rd rs1, FetchesInstr s (.ebreak rd rs1)) ∨ TakesCommand s .continue ∧ t.stepMode = false) ∧
      (t.missCount ≠ s.missCount →
        (TakesStep s ∧ (∃ info, FetchesMiss s info) ∧ t.missCount = s.missCount + 1) ∨
          (TakesStep s ∧ (∃ i, FetchesInstr s i) ∧ t.missCount = 0) ∨ TakesCommand s .reset ∧ t.missCount = 0) ∧
      (t.runState ≠ s.runState →
        (TakesStep s ∧ s.cfg.memWords ≤ wordIndex s.pc ∧ t.runState = .halted .outOfBoundsFetch) ∨
          (TakesStep s ∧ (∃ rd rs1, FetchesInstr s (.ecall rd rs1)) ∧ s.cfg.ecallAction = .halt ∧
            t.runState = .halted .ecall) ∨
          (TakesStep s ∧ (∃ info, FetchesMiss s info) ∧ 0 < s.cfg.missHaltLimit ∧
            s.cfg.missHaltLimit ≤ s.missCount + 1 ∧ t.runState = .halted .missLimit) ∨
          TakesCommand s .exit ∧ t.runState = .halted .exit)

/-- 60_exceptions.md R225, R220 (an inference the spec marks as its own): a step raises at most one condition, a step
that executes an instruction raises none, and no instruction's own effect raises any. -/
def Obligations.AtMostOneConditionPerStep : Prop :=
  (∀ s t : State, step s = .next t → t.raised = s.raised ∨ ∃ c, t.raised = s.raised ++ [c]) ∧
    (∀ (s t : State) (w : Word) (i : Instr), FreeRunning s → s.fetch = some w → decode w = .hit i →
      step s = .next t → t.raised = s.raised) ∧
    ∀ (i : Instr) (s t : State), exec i s = .next t → t.raised = s.raised

/-- 60_exceptions.md R231, R220: every instruction may execute at any time, in every state; the one exception is a
halfword access that `STUCK` gives no step (92_eei_decisions.md D12), and then it has none. That such an access out of
range at offset 3 completes under `STUCK` is the model's inference (log 8). -/
def Obligations.EveryInstructionRunsUnlessStuck : Prop :=
  ∀ (i : Instr) (s : State),
    ((¬ ∃ a, halfwordAddress i s = some a ∧ HalfwordStuck s a) → ∃ t, exec i s = .next t) ∧
      ((∃ a, halfwordAddress i s = some a ∧ HalfwordStuck s a) → exec i s = .fault .halfwordStuck)

/-! ## The host interface -/

/-- 10_state.md R27, 93_implementation_defined.md item 17 (92_eei_decisions.md D25, the spec's own choice): a suspended
core with no host command has no step (log 6). -/
def Obligations.SuspendedWithoutCommandHasNoStep : Prop :=
  ∀ s : State, s.runState = .running → s.stepMode = true → s.hostQueue = [] → step s = .fault .suspendedNoCommand

/-- 60_exceptions.md R233 (in part an inference the spec marks as its own): `step` makes one step, the same a free
core would make; a core still running is then suspended again, unless the one instruction was an EBREAK, which leaves
it free. The command queue is the model's own field (log 7). -/
def Obligations.HostStepMakesOneStep : Prop :=
  ∀ (s : State) (q : List HostCommand), s.runState = .running → s.stepMode = true → s.hostQueue = .step :: q →
    step s = ({ s with hostQueue := q } : State).coreStep ∧
      (∀ u : State, FreeRunning u → step u = u.coreStep) ∧
      ∀ t, step s = .next t → t.hostQueue = q ∧
        (t.runState = .running → t.stepMode = true ∨
          ∃ w rd rs1, s.fetch = some w ∧ decode w = .hit (.ebreak rd rs1) ∧ t.stepMode = false)

/-- 60_exceptions.md R234: `continue` clears step mode and changes nothing else; a free core's step then suspends only
by an EBREAK. The command queue is the model's own field (log 7). -/
def Obligations.HostContinueFreesTheCore : Prop :=
  (∀ (s : State) (q : List HostCommand), s.runState = .running → s.stepMode = true → s.hostQueue = .continue :: q →
      step s = .next { s with hostQueue := q, stepMode := false }) ∧
    ∀ s t : State, FreeRunning s → step s = .next t → t.stepMode = true →
      ∃ w rd rs1, s.fetch = some w ∧ decode w = .hit (.ebreak rd rs1)

/-- 60_exceptions.md R235 (92_eei_decisions.md D17): `reset` fills the registers, sets `pc` to `START_ADDR` and clears
the miss count; memory, step mode, run state and all else of the core stay, so the core stays suspended. The command queue,
from which the step takes the command, is the model's own field (log 7). -/
def Obligations.HostResetKeepsMemory : Prop :=
  ∀ (s : State) (q : List HostCommand), s.runState = .running → s.stepMode = true → s.hostQueue = .reset :: q →
    ∃ t, step s = .next t ∧ t.readReg 0#5 = 0#32 ∧ (∀ r : RegIdx, r ≠ 0#5 → t.readReg r = s.cfg.regFill) ∧
      t = { s with regs := t.regs, pc := s.cfg.startAddr, missCount := 0, hostQueue := q }

/-- 60_exceptions.md R236: `exit` moves the core to `Halted(Exit)`, and its state is kept. The command queue is the
model's own field (log 7), and so is that the further steps of a halted core answer the same state (log 5). -/
def Obligations.HostExitHalts : Prop :=
  ∀ (s : State) (q : List HostCommand), s.runState = .running → s.stepMode = true → s.hostQueue = .exit :: q →
    step s = .next { s with hostQueue := q, runState := .halted .exit } ∧
      ∀ n, ∃ t, Host.Core.run core (n + 1) s = .next t ∧ t = { s with hostQueue := q, runState := .halted .exit }

/-- 60_exceptions.md R237 (92_eei_decisions.md D24): a dump gives the host the words at `addr + 4*i` modulo 2^32, out of
range 0, and a malformed command is raised; neither changes core state. The command queue is the model's own field
(log 7), and so are the lists that hold what a dump gave and what was raised (log 13). -/
def Obligations.DumpAndMalformedChangeNoCoreState : Prop :=
  ∀ (s : State) (q : List HostCommand), s.runState = .running → s.stepMode = true →
    (∀ count addr, s.hostQueue = .dump count addr :: q →
        ∃ ws : List Word, step s = .next { s with hostQueue := q, dumpOut := s.dumpOut ++ [ws] } ∧
          ws.length = count ∧
          ∀ k < count, ws[k]? = some (s.readWord (BitVec.ofNat 32 (addr.toNat + 4 * k)))) ∧
      ∀ text, s.hostQueue = .malformed text :: q →
        step s = .next { s with hostQueue := q, raised := s.raised ++ [.malformedCommand text] }

/-! ## Memory -/

/-- 20_memory.md R69 (an inference the spec marks as its own): a store is seen by the very next fetch of the word. -/
def Obligations.StoreIsSeenByTheNextFetch : Prop :=
  ∀ (s t : State) (rs2 rs1 : RegIdx) (imm : BitVec 12) (p : Word), s.inRange (s.ea rs1 imm) = true →
    exec (.sw rs2 rs1 imm) s = .next t → wordIndex p = wordIndex (s.ea rs1 imm) →
      ({ t with pc := p } : State).fetch = some (s.readReg rs2)

/-- The model's memory (log 4): two memories in canonical form that read the same at every byte are the same list. -/
def Obligations.CanonicalMemoriesThatReadAlikeAreEqual : Prop :=
  ∀ (c : Config) (m n : Memory), Memory.wf c m = true → Memory.wf c n = true →
    (∀ a < 4 * c.memWords, m.readByte c.memFill a = n.readByte c.memFill a) → m = n

/-! ## Power-on and the invariant -/

/-- 10_state.md R37, 70_reset_and_hazards.md R250, R252 (in part the spec's own choices: D17, D18, D23): what power-on
leaves, for every accepted configuration: registers, pc, control state, and every word of memory. -/
def Obligations.PowerOnLeavesTheConfiguredState : Prop :=
  ∀ c : Config, c.valid = true → c.imageFits = true → ∃ s, powerOn c = .next s ∧
    s.readReg 0#5 = 0#32 ∧ (∀ r : RegIdx, r ≠ 0#5 → s.readReg r = c.regFill) ∧ s.pc = c.startAddr ∧
    s.runState = .running ∧ s.stepMode = c.stepModeInit ∧ s.missCount = 0 ∧ s.debugLog = c.debugLog ∧ s.cfg = c ∧
    ∀ a : Word, wordIndex a < c.memWords →
      s.readWord a =
        if wordIndex c.startAddr ≤ wordIndex a ∧ wordIndex a < wordIndex c.startAddr + c.image.length then
          c.image.getD (wordIndex a - wordIndex c.startAddr) 0#32
        else c.memFill

/-- 00_scope.md R7, 70_reset_and_hazards.md R253 (92_eei_decisions.md D18): a configuration outside its ranges, or an
image that does not fit, has no run. -/
def Obligations.PowerOnRefusesWhatHasNoRun : Prop :=
  ∀ c : Config,
    (¬ (1 ≤ c.memWords ∧ c.memWords ≤ 2 ^ 30 ∧ c.startAddr.toNat % 4 = 0 ∧ c.startAddr.toNat / 4 < c.memWords) →
        powerOn c = .refused .configurationOutOfRange) ∧
      (1 ≤ c.memWords ∧ c.memWords ≤ 2 ^ 30 ∧ c.startAddr.toNat % 4 = 0 ∧ c.startAddr.toNat / 4 < c.memWords →
        c.memWords < c.startAddr.toNat / 4 + c.image.length → powerOn c = .refused .imageTooLarge)

/-- 70_reset_and_hazards.md R252 (92_eei_decisions.md D18): an image file of whole words gives its little-endian words;
any other length is refused. -/
def Obligations.ImageFileIsLittleEndianWords : Prop :=
  ∀ file : List Byte,
    (file.length % 4 = 0 → ∃ ws : List Word, imageOfFile file = .ok ws ∧ 4 * ws.length = file.length ∧
        ∀ i k, i < ws.length → k < 4 → file[4 * i + k]? = (ws[i]?).map fun w => byteLane w k) ∧
      (file.length % 4 ≠ 0 → imageOfFile file = .error .imageFileLength)

/-- Every step keeps the invariant of a run: memory canonical and inside its capacity, slot 0 of the register file
zero, `redirect` clear, the miss limit not reached while running, each halt reason only where its rule lets it arise. The
canonical form and the clear flag are the model's choices (log 4, log 9). -/
def Obligations.StepKeepsTheRunInvariant : Prop :=
  ∀ s t : State, RunInvariant s → step s = .next t → RunInvariant t

/-- The invariant holds after reset and after power-on with every accepted configuration. The parameter values of
`State.reset` are the model's (log 1, 2, 3). -/
def Obligations.EveryStartMeetsTheRunInvariant : Prop :=
  RunInvariant State.reset ∧ ∀ (c : Config) (s : State), powerOn c = .next s → RunInvariant s
end

