-- ==== Sys2Proof/Laws/Bits.lean ====
section
/-! SUPPORT. The bits of every format and immediate, one at a time: what the proofs about encodings rest on. -/

namespace Sys2Proof

/-- Two words with the same 32 bits are equal. -/
theorem word_ext {v w : Word} (h : ∀ i, i < 32 → v.getLsbD i = w.getLsbD i) : v = w :=
  BitVec.eq_of_getLsbD_eq fun i hi => h i hi

/-- Bit `i` of a field. -/
theorem getLsbD_bits {w : Nat} (v : BitVec w) (lo n i : Nat) :
    (bits v lo n).getLsbD i = (decide (i < n) && v.getLsbD (lo + i)) := by
  simp [bits, BitVec.getLsbD_extractLsb']

theorem encodeR_getLsbD (k : Key) (rs2 rs1 rd : BitVec 5) (i : Nat) :
    (encodeR k rs2 rs1 rd).getLsbD i =
      if i < 7 then k.opcode.getLsbD i else if i < 12 then rd.getLsbD (i - 7)
      else if i < 15 then k.funct3.getLsbD (i - 12) else if i < 20 then rs1.getLsbD (i - 15)
      else if i < 25 then rs2.getLsbD (i - 20) else k.funct7.getLsbD (i - 25) := by
  change BitVec.getLsbD (w := 7 + 5 + 5 + 3 + 5 + 7)
    (k.funct7 ++ rs2 ++ rs1 ++ k.funct3 ++ rd ++ k.opcode) i = _
  simp only [BitVec.getLsbD_append]
  (repeat' split) <;> first | rfl | omega

theorem encodeI_getLsbD (k : Key) (imm : BitVec 12) (rs1 rd : RegIdx) (i : Nat) :
    (encodeI k imm rs1 rd).getLsbD i =
      if i < 7 then k.opcode.getLsbD i else if i < 12 then rd.getLsbD (i - 7)
      else if i < 15 then k.funct3.getLsbD (i - 12) else if i < 20 then rs1.getLsbD (i - 15)
      else imm.getLsbD (i - 20) := by
  change BitVec.getLsbD (w := 12 + 5 + 3 + 5 + 7) (imm ++ rs1 ++ k.funct3 ++ rd ++ k.opcode) i = _
  simp only [BitVec.getLsbD_append]
  (repeat' split) <;> first | rfl | omega

theorem encodeS_getLsbD (k : Key) (imm : BitVec 12) (rs2 rs1 : RegIdx) (i : Nat) :
    (encodeS k imm rs2 rs1).getLsbD i =
      if i < 7 then k.opcode.getLsbD i else if i < 12 then imm.getLsbD (i - 7)
      else if i < 15 then k.funct3.getLsbD (i - 12) else if i < 20 then rs1.getLsbD (i - 15)
      else if i < 25 then rs2.getLsbD (i - 20) else if i < 32 then imm.getLsbD (i - 20) else false := by
  change BitVec.getLsbD (w := 7 + 5 + 5 + 3 + 5 + 7)
    (bits imm 5 7 ++ rs2 ++ rs1 ++ k.funct3 ++ bits imm 0 5 ++ k.opcode) i = _
  simp only [BitVec.getLsbD_append, getLsbD_bits]
  (repeat' split) <;> (try omega) <;>
    first
      | rfl
      | (rw [decide_eq_true (by omega), Bool.true_and]; congr 1; omega)
      | (rw [decide_eq_false (by omega), Bool.false_and])

theorem encodeSB_getLsbD (k : Key) (off : BitVec 13) (rs2 rs1 : RegIdx) (i : Nat) :
    (encodeSB k off rs2 rs1).getLsbD i =
      if i < 7 then k.opcode.getLsbD i else if i < 8 then off.getLsbD 11 else if i < 12 then off.getLsbD (i - 7)
      else if i < 15 then k.funct3.getLsbD (i - 12) else if i < 20 then rs1.getLsbD (i - 15)
      else if i < 25 then rs2.getLsbD (i - 20) else if i < 31 then off.getLsbD (i - 20)
      else if i < 32 then off.getLsbD 12 else false := by
  change BitVec.getLsbD (w := 1 + 6 + 5 + 5 + 3 + 4 + 1 + 7)
    (bits off 12 1 ++ bits off 5 6 ++ rs2 ++ rs1 ++ k.funct3 ++ bits off 1 4 ++ bits off 11 1 ++ k.opcode) i = _
  simp only [BitVec.getLsbD_append, getLsbD_bits]
  (repeat' split) <;> (try omega) <;>
    first
      | rfl
      | (rw [decide_eq_true (by omega), Bool.true_and]; congr 1; omega)
      | (rw [decide_eq_false (by omega), Bool.false_and])

theorem encodeU_getLsbD (k : Key) (imm : BitVec 20) (rd : RegIdx) (i : Nat) :
    (encodeU k imm rd).getLsbD i =
      if i < 7 then k.opcode.getLsbD i else if i < 12 then rd.getLsbD (i - 7) else imm.getLsbD (i - 12) := by
  change BitVec.getLsbD (w := 20 + 5 + 7) (imm ++ rd ++ k.opcode) i = _
  simp only [BitVec.getLsbD_append]
  (repeat' split) <;> first | rfl | omega

theorem encodeUJ_getLsbD (k : Key) (off : BitVec 21) (rd : RegIdx) (i : Nat) :
    (encodeUJ k off rd).getLsbD i =
      if i < 7 then k.opcode.getLsbD i else if i < 12 then rd.getLsbD (i - 7)
      else if i < 20 then off.getLsbD i else if i < 21 then off.getLsbD 11
      else if i < 31 then off.getLsbD (i - 20) else if i < 32 then off.getLsbD 20 else false := by
  change BitVec.getLsbD (w := 1 + 10 + 1 + 8 + 5 + 7)
    (bits off 20 1 ++ bits off 1 10 ++ bits off 11 1 ++ bits off 12 8 ++ rd ++ k.opcode) i = _
  simp only [BitVec.getLsbD_append, getLsbD_bits]
  (repeat' split) <;> (try omega) <;>
    first
      | rfl
      | (rw [decide_eq_true (by omega), Bool.true_and]; congr 1; omega)
      | (rw [decide_eq_false (by omega), Bool.false_and])

theorem immBOf_getLsbD (w : Word) (i : Nat) :
    (immBOf w).getLsbD i =
      if i < 1 then false else if i < 5 then w.getLsbD (7 + i) else if i < 11 then w.getLsbD (20 + i)
      else if i < 12 then w.getLsbD 7 else if i < 13 then w.getLsbD 31 else false := by
  change BitVec.getLsbD (w := 1 + 1 + 6 + 4 + 1)
    (bits w 31 1 ++ bits w 7 1 ++ bits w 25 6 ++ bits w 8 4 ++ 0#1) i = _
  simp only [BitVec.getLsbD_append, getLsbD_bits]
  (repeat' split) <;> (try omega) <;>
    first
      | simp only [BitVec.getLsbD_zero]
      | (rw [decide_eq_true (by omega), Bool.true_and]; congr 1; omega)
      | (rw [decide_eq_false (by omega), Bool.false_and])

theorem immJOf_getLsbD (w : Word) (i : Nat) :
    (immJOf w).getLsbD i =
      if i < 1 then false else if i < 11 then w.getLsbD (20 + i) else if i < 12 then w.getLsbD 20
      else if i < 20 then w.getLsbD i else if i < 21 then w.getLsbD 31 else false := by
  change BitVec.getLsbD (w := 1 + 8 + 1 + 10 + 1)
    (bits w 31 1 ++ bits w 12 8 ++ bits w 20 1 ++ bits w 21 10 ++ 0#1) i = _
  simp only [BitVec.getLsbD_append, getLsbD_bits]
  (repeat' split) <;> (try omega) <;>
    first
      | simp only [BitVec.getLsbD_zero]
      | (rw [decide_eq_true (by omega), Bool.true_and]; congr 1; omega)
      | (rw [decide_eq_false (by omega), Bool.false_and])

/-- The S immediate (30_encoding.md R90). -/
theorem immS_getLsbD (w : Word) (i : Nat) :
    (Fields.ofWord w).immS.getLsbD i =
      if i < 5 then w.getLsbD (7 + i) else if i < 12 then w.getLsbD (20 + i) else false := by
  change BitVec.getLsbD (w := 7 + 5) (bits w 25 7 ++ bits w 7 5) i = _
  simp only [BitVec.getLsbD_append, getLsbD_bits]
  (repeat' split) <;>
    first
      | (rw [decide_eq_true (by omega), Bool.true_and]; congr 1; omega)
      | rw [decide_eq_true (by omega), Bool.true_and]
      | (rw [decide_eq_false (by omega), Bool.false_and])

/-- The four bytes of a word, one bit at a time (20_memory.md R54). -/
theorem wordOfBytes_getLsbD (b0 b1 b2 b3 : Byte) (i : Nat) :
    (wordOfBytes b0 b1 b2 b3).getLsbD i =
      if i < 8 then b0.getLsbD i else if i < 16 then b1.getLsbD (i - 8) else if i < 24 then b2.getLsbD (i - 16)
      else b3.getLsbD (i - 24) := by
  change BitVec.getLsbD (w := 8 + 8 + 8 + 8) (b3 ++ b2 ++ b1 ++ b0) i = _
  simp only [BitVec.getLsbD_append]
  (repeat' split) <;> first | rfl | omega

end Sys2Proof
end

