-- ==== Sys2Proof/Laws/State.lean ====
section
/-! SUPPORT. Each field after each update, so that no later proof unfolds a record update. -/

namespace Sys2Proof.Machine

@[simp] theorem State.jump_regs (s : State) (v : Word) : (s.jump v).regs = s.regs := rfl
@[simp] theorem State.jump_pc (s : State) (v : Word) : (s.jump v).pc = v := rfl
@[simp] theorem State.jump_mem (s : State) (v : Word) : (s.jump v).mem = s.mem := rfl
@[simp] theorem State.jump_runState (s : State) (v : Word) : (s.jump v).runState = s.runState := rfl
@[simp] theorem State.jump_stepMode (s : State) (v : Word) : (s.jump v).stepMode = s.stepMode := rfl
@[simp] theorem State.jump_missCount (s : State) (v : Word) : (s.jump v).missCount = s.missCount := rfl
@[simp] theorem State.jump_redirect (s : State) (v : Word) : (s.jump v).redirect = true := rfl
@[simp] theorem State.jump_debugLog (s : State) (v : Word) : (s.jump v).debugLog = s.debugLog := rfl
@[simp] theorem State.jump_cfg (s : State) (v : Word) : (s.jump v).cfg = s.cfg := rfl
@[simp] theorem State.jump_hostQueue (s : State) (v : Word) : (s.jump v).hostQueue = s.hostQueue := rfl
@[simp] theorem State.jump_traceOut (s : State) (v : Word) : (s.jump v).traceOut = s.traceOut := rfl
@[simp] theorem State.jump_raised (s : State) (v : Word) : (s.jump v).raised = s.raised := rfl
@[simp] theorem State.jump_dumpOut (s : State) (v : Word) : (s.jump v).dumpOut = s.dumpOut := rfl

@[simp] theorem State.advance_regs (s : State) : (s.advance).regs = s.regs := rfl
@[simp] theorem State.advance_pc (s : State) : (s.advance).pc = s.pc + 4#32 := rfl
@[simp] theorem State.advance_mem (s : State) : (s.advance).mem = s.mem := rfl
@[simp] theorem State.advance_runState (s : State) : (s.advance).runState = s.runState := rfl
@[simp] theorem State.advance_stepMode (s : State) : (s.advance).stepMode = s.stepMode := rfl
@[simp] theorem State.advance_missCount (s : State) : (s.advance).missCount = s.missCount := rfl
@[simp] theorem State.advance_redirect (s : State) : (s.advance).redirect = s.redirect := rfl
@[simp] theorem State.advance_debugLog (s : State) : (s.advance).debugLog = s.debugLog := rfl
@[simp] theorem State.advance_cfg (s : State) : (s.advance).cfg = s.cfg := rfl
@[simp] theorem State.advance_hostQueue (s : State) : (s.advance).hostQueue = s.hostQueue := rfl
@[simp] theorem State.advance_traceOut (s : State) : (s.advance).traceOut = s.traceOut := rfl
@[simp] theorem State.advance_raised (s : State) : (s.advance).raised = s.raised := rfl
@[simp] theorem State.advance_dumpOut (s : State) : (s.advance).dumpOut = s.dumpOut := rfl

@[simp] theorem State.raise_regs (s : State) (c : Condition) : (s.raise c).regs = s.regs := rfl
@[simp] theorem State.raise_pc (s : State) (c : Condition) : (s.raise c).pc = s.pc := rfl
@[simp] theorem State.raise_mem (s : State) (c : Condition) : (s.raise c).mem = s.mem := rfl
@[simp] theorem State.raise_runState (s : State) (c : Condition) : (s.raise c).runState = s.runState := rfl
@[simp] theorem State.raise_stepMode (s : State) (c : Condition) : (s.raise c).stepMode = s.stepMode := rfl
@[simp] theorem State.raise_missCount (s : State) (c : Condition) : (s.raise c).missCount = s.missCount := rfl
@[simp] theorem State.raise_redirect (s : State) (c : Condition) : (s.raise c).redirect = s.redirect := rfl
@[simp] theorem State.raise_debugLog (s : State) (c : Condition) : (s.raise c).debugLog = s.debugLog := rfl
@[simp] theorem State.raise_cfg (s : State) (c : Condition) : (s.raise c).cfg = s.cfg := rfl
@[simp] theorem State.raise_hostQueue (s : State) (c : Condition) : (s.raise c).hostQueue = s.hostQueue := rfl
@[simp] theorem State.raise_traceOut (s : State) (c : Condition) : (s.raise c).traceOut = s.traceOut := rfl
@[simp] theorem State.raise_raised (s : State) (c : Condition) : (s.raise c).raised = s.raised ++ [c] := rfl
@[simp] theorem State.raise_dumpOut (s : State) (c : Condition) : (s.raise c).dumpOut = s.dumpOut := rfl

@[simp] theorem State.halt_regs (s : State) (r : HaltReason) : (s.halt r).regs = s.regs := rfl
@[simp] theorem State.halt_pc (s : State) (r : HaltReason) : (s.halt r).pc = s.pc := rfl
@[simp] theorem State.halt_mem (s : State) (r : HaltReason) : (s.halt r).mem = s.mem := rfl
@[simp] theorem State.halt_runState (s : State) (r : HaltReason) : (s.halt r).runState = .halted r := rfl
@[simp] theorem State.halt_stepMode (s : State) (r : HaltReason) : (s.halt r).stepMode = s.stepMode := rfl
@[simp] theorem State.halt_missCount (s : State) (r : HaltReason) : (s.halt r).missCount = s.missCount := rfl
@[simp] theorem State.halt_redirect (s : State) (r : HaltReason) : (s.halt r).redirect = s.redirect := rfl
@[simp] theorem State.halt_debugLog (s : State) (r : HaltReason) : (s.halt r).debugLog = s.debugLog := rfl
@[simp] theorem State.halt_cfg (s : State) (r : HaltReason) : (s.halt r).cfg = s.cfg := rfl
@[simp] theorem State.halt_hostQueue (s : State) (r : HaltReason) : (s.halt r).hostQueue = s.hostQueue := rfl
@[simp] theorem State.halt_traceOut (s : State) (r : HaltReason) : (s.halt r).traceOut = s.traceOut := rfl
@[simp] theorem State.halt_raised (s : State) (r : HaltReason) : (s.halt r).raised = s.raised := rfl
@[simp] theorem State.halt_dumpOut (s : State) (r : HaltReason) : (s.halt r).dumpOut = s.dumpOut := rfl

@[simp] theorem State.beginStep_regs (s : State) : (s.beginStep).regs = s.regs := rfl
@[simp] theorem State.beginStep_pc (s : State) : (s.beginStep).pc = s.pc := rfl
@[simp] theorem State.beginStep_mem (s : State) : (s.beginStep).mem = s.mem := rfl
@[simp] theorem State.beginStep_runState (s : State) : (s.beginStep).runState = s.runState := rfl
@[simp] theorem State.beginStep_stepMode (s : State) : (s.beginStep).stepMode = s.stepMode := rfl
@[simp] theorem State.beginStep_missCount (s : State) : (s.beginStep).missCount = s.missCount := rfl
@[simp] theorem State.beginStep_redirect (s : State) : (s.beginStep).redirect = false := rfl
@[simp] theorem State.beginStep_debugLog (s : State) : (s.beginStep).debugLog = s.debugLog := rfl
@[simp] theorem State.beginStep_cfg (s : State) : (s.beginStep).cfg = s.cfg := rfl
@[simp] theorem State.beginStep_hostQueue (s : State) : (s.beginStep).hostQueue = s.hostQueue := rfl
@[simp] theorem State.beginStep_traceOut (s : State) : (s.beginStep).traceOut = s.traceOut := rfl
@[simp] theorem State.beginStep_raised (s : State) : (s.beginStep).raised = s.raised := rfl
@[simp] theorem State.beginStep_dumpOut (s : State) : (s.beginStep).dumpOut = s.dumpOut := rfl

@[simp] theorem State.hostReset_regs (s : State) : (s.hostReset).regs = filledRegs s.cfg.regFill := rfl
@[simp] theorem State.hostReset_pc (s : State) : (s.hostReset).pc = s.cfg.startAddr := rfl
@[simp] theorem State.hostReset_mem (s : State) : (s.hostReset).mem = s.mem := rfl
@[simp] theorem State.hostReset_runState (s : State) : (s.hostReset).runState = s.runState := rfl
@[simp] theorem State.hostReset_stepMode (s : State) : (s.hostReset).stepMode = s.stepMode := rfl
@[simp] theorem State.hostReset_missCount (s : State) : (s.hostReset).missCount = 0 := rfl
@[simp] theorem State.hostReset_redirect (s : State) : (s.hostReset).redirect = s.redirect := rfl
@[simp] theorem State.hostReset_debugLog (s : State) : (s.hostReset).debugLog = s.debugLog := rfl
@[simp] theorem State.hostReset_cfg (s : State) : (s.hostReset).cfg = s.cfg := rfl
@[simp] theorem State.hostReset_hostQueue (s : State) : (s.hostReset).hostQueue = s.hostQueue := rfl
@[simp] theorem State.hostReset_traceOut (s : State) : (s.hostReset).traceOut = s.traceOut := rfl
@[simp] theorem State.hostReset_raised (s : State) : (s.hostReset).raised = s.raised := rfl
@[simp] theorem State.hostReset_dumpOut (s : State) : (s.hostReset).dumpOut = s.dumpOut := rfl

@[simp] theorem State.writeReg_pc (s : State) (i : RegIdx) (v : Word) : (s.writeReg i v).pc = s.pc := by
  unfold State.writeReg; split <;> rfl
@[simp] theorem State.writeReg_mem (s : State) (i : RegIdx) (v : Word) : (s.writeReg i v).mem = s.mem := by
  unfold State.writeReg; split <;> rfl
@[simp] theorem State.writeReg_runState (s : State) (i : RegIdx) (v : Word) : (s.writeReg i v).runState = s.runState := by
  unfold State.writeReg; split <;> rfl
@[simp] theorem State.writeReg_stepMode (s : State) (i : RegIdx) (v : Word) : (s.writeReg i v).stepMode = s.stepMode := by
  unfold State.writeReg; split <;> rfl
@[simp] theorem State.writeReg_missCount (s : State) (i : RegIdx) (v : Word) : (s.writeReg i v).missCount = s.missCount := by
  unfold State.writeReg; split <;> rfl
@[simp] theorem State.writeReg_redirect (s : State) (i : RegIdx) (v : Word) : (s.writeReg i v).redirect = s.redirect := by
  unfold State.writeReg; split <;> rfl
@[simp] theorem State.writeReg_debugLog (s : State) (i : RegIdx) (v : Word) : (s.writeReg i v).debugLog = s.debugLog := by
  unfold State.writeReg; split <;> rfl
@[simp] theorem State.writeReg_cfg (s : State) (i : RegIdx) (v : Word) : (s.writeReg i v).cfg = s.cfg := by
  unfold State.writeReg; split <;> rfl
@[simp] theorem State.writeReg_hostQueue (s : State) (i : RegIdx) (v : Word) : (s.writeReg i v).hostQueue = s.hostQueue := by
  unfold State.writeReg; split <;> rfl
@[simp] theorem State.writeReg_traceOut (s : State) (i : RegIdx) (v : Word) : (s.writeReg i v).traceOut = s.traceOut := by
  unfold State.writeReg; split <;> rfl
@[simp] theorem State.writeReg_raised (s : State) (i : RegIdx) (v : Word) : (s.writeReg i v).raised = s.raised := by
  unfold State.writeReg; split <;> rfl
@[simp] theorem State.writeReg_dumpOut (s : State) (i : RegIdx) (v : Word) : (s.writeReg i v).dumpOut = s.dumpOut := by
  unfold State.writeReg; split <;> rfl

@[simp] theorem State.writeWord_regs (s : State) (a w : Word) : (s.writeWord a w).regs = s.regs := by
  unfold State.writeWord; split <;> rfl
@[simp] theorem State.writeWord_pc (s : State) (a w : Word) : (s.writeWord a w).pc = s.pc := by
  unfold State.writeWord; split <;> rfl
@[simp] theorem State.writeWord_runState (s : State) (a w : Word) : (s.writeWord a w).runState = s.runState := by
  unfold State.writeWord; split <;> rfl
@[simp] theorem State.writeWord_stepMode (s : State) (a w : Word) : (s.writeWord a w).stepMode = s.stepMode := by
  unfold State.writeWord; split <;> rfl
@[simp] theorem State.writeWord_missCount (s : State) (a w : Word) : (s.writeWord a w).missCount = s.missCount := by
  unfold State.writeWord; split <;> rfl
@[simp] theorem State.writeWord_redirect (s : State) (a w : Word) : (s.writeWord a w).redirect = s.redirect := by
  unfold State.writeWord; split <;> rfl
@[simp] theorem State.writeWord_debugLog (s : State) (a w : Word) : (s.writeWord a w).debugLog = s.debugLog := by
  unfold State.writeWord; split <;> rfl
@[simp] theorem State.writeWord_cfg (s : State) (a w : Word) : (s.writeWord a w).cfg = s.cfg := by
  unfold State.writeWord; split <;> rfl
@[simp] theorem State.writeWord_hostQueue (s : State) (a w : Word) : (s.writeWord a w).hostQueue = s.hostQueue := by
  unfold State.writeWord; split <;> rfl
@[simp] theorem State.writeWord_traceOut (s : State) (a w : Word) : (s.writeWord a w).traceOut = s.traceOut := by
  unfold State.writeWord; split <;> rfl
@[simp] theorem State.writeWord_raised (s : State) (a w : Word) : (s.writeWord a w).raised = s.raised := by
  unfold State.writeWord; split <;> rfl
@[simp] theorem State.writeWord_dumpOut (s : State) (a w : Word) : (s.writeWord a w).dumpOut = s.dumpOut := by
  unfold State.writeWord; split <;> rfl

end Sys2Proof.Machine
end

