-- ==== Sys2Proof/Laws/Memory.lean ====
section
/-! SUPPORT. The memory cells: read after write, and the canonical form every operation keeps (log 4). -/

namespace Sys2Proof.Machine

/-! ## Read after write -/

theorem Memory.lookup_put (a b : Nat) (v : Byte) (m : Memory) :
    Memory.lookup b (Memory.put a v m) = if b = a then some v else Memory.lookup b m := by
  induction m with
  | nil => rfl
  | cons c m ih =>
    obtain ⟨x, y⟩ := c
    simp only [Memory.put]
    split
    · rfl
    · split
      · next h =>
        subst h
        simp only [Memory.lookup]
        split <;> rfl
      · next h =>
        simp only [Memory.lookup, ih]
        by_cases hbx : b = x
        · have : b ≠ a := fun e => h (e ▸ hbx)
          simp [hbx, Ne.symm h]
        · simp [hbx]

theorem Memory.lookup_unlist (a b : Nat) (m : Memory) :
    Memory.lookup b (Memory.unlist a m) = if b = a then none else Memory.lookup b m := by
  induction m with
  | nil => simp [Memory.unlist, Memory.lookup]
  | cons c m ih =>
    obtain ⟨x, y⟩ := c
    simp only [Memory.unlist]
    split
    · next h =>
      subst h
      rw [ih]
      simp only [Memory.lookup]
      split <;> simp_all
    · next h =>
      simp only [Memory.lookup, ih]
      by_cases hbx : b = x
      · subst hbx; simp [Ne.symm h]
      · simp [hbx]

/-- A byte written is read back; every other byte reads as before. -/
theorem Memory.readByte_writeByte (fill : Word) (m : Memory) (a b : Nat) (v : Byte) :
    (Memory.writeByte fill m a v).readByte fill b = if b = a then v else m.readByte fill b := by
  unfold Memory.writeByte Memory.readByte
  split
  · next h =>
    rw [Memory.lookup_unlist]
    split
    · next e => subst e; simp [h]
    · rfl
  · rw [Memory.lookup_put]
    split <;> rfl

/-- Byte lane `k` of four bytes. -/
theorem byteLane_wordOfBytes (b0 b1 b2 b3 : Byte) :
    byteLane (wordOfBytes b0 b1 b2 b3) 0 = b0 ∧ byteLane (wordOfBytes b0 b1 b2 b3) 1 = b1
      ∧ byteLane (wordOfBytes b0 b1 b2 b3) 2 = b2 ∧ byteLane (wordOfBytes b0 b1 b2 b3) 3 = b3 := by
  refine ⟨?_, ?_, ?_, ?_⟩ <;> refine BitVec.eq_of_getLsbD_eq fun i hi => ?_ <;>
    simp only [byteLane, getLsbD_bits, wordOfBytes_getLsbD, hi, decide_true, Bool.true_and] <;>
    (repeat' split) <;> first | omega | (congr 1; omega)

/-- A word is its four byte lanes (20_memory.md R54). -/
theorem wordOfBytes_byteLane (w : Word) :
    wordOfBytes (byteLane w 0) (byteLane w 1) (byteLane w 2) (byteLane w 3) = w := by
  refine word_ext fun i hi => ?_
  simp only [wordOfBytes_getLsbD, byteLane, getLsbD_bits]
  (repeat' split) <;> rw [decide_eq_true (by omega), Bool.true_and] <;> congr 1 <;> omega

/-- A byte of a word read from memory (20_memory.md R54). -/
theorem Memory.byteLane_readWord (fill : Word) (m : Memory) (i k : Nat) (hk : k < 4) :
    byteLane (m.readWord fill i) k = m.readByte fill (4 * i + k) := by
  have h := byteLane_wordOfBytes (m.readByte fill (4 * i)) (m.readByte fill (4 * i + 1))
    (m.readByte fill (4 * i + 2)) (m.readByte fill (4 * i + 3))
  unfold Memory.readWord
  match k, hk with
  | 0, _ => exact h.1
  | 1, _ => exact h.2.1
  | 2, _ => exact h.2.2.1
  | 3, _ => exact h.2.2.2

/-- A word written is read back; every other word reads as before (20_memory.md R59). -/
theorem Memory.readWord_writeWord (fill : Word) (m : Memory) (i j : Nat) (w : Word) :
    (m.writeWord fill i w).readWord fill j = if j = i then w else m.readWord fill j := by
  unfold Memory.readWord Memory.writeWord
  simp only [Memory.readByte_writeByte]
  by_cases h : j = i
  · subst h
    simp [wordOfBytes_byteLane]
  · have e : ∀ p q, p < 4 → q < 4 → (4 * j + p = 4 * i + q) = False := fun p q _ _ => by
      simp only [eq_iff_iff, iff_false]; omega
    have e0 : ∀ q, q < 4 → (4 * j = 4 * i + q) = False := fun q _ => by
      simp only [eq_iff_iff, iff_false]; omega
    have e1 : ∀ p, p < 4 → (4 * j + p = 4 * i) = False := fun p _ => by
      simp only [eq_iff_iff, iff_false]; omega
    have e2 : (4 * j = 4 * i) = False := by simp only [eq_iff_iff, iff_false]; omega
    simp [e 2 1, e 3 1, e 3 2, e0 1, e0 2, e0 3, e1 1, e1 2, e1 3, h]

/-! ## The canonical form -/

theorem Memory.risesFrom_mono {lo hi : Nat} (h : lo ≤ hi) : ∀ {m : Memory}, m.risesFrom hi = true → m.risesFrom lo = true
  | [], _ => rfl
  | (a, _) :: m, hm => by
    simp only [Memory.risesFrom, Bool.and_eq_true, decide_eq_true_eq] at hm ⊢
    exact ⟨by omega, hm.2⟩

theorem Memory.risesFrom_put (a : Nat) (v : Byte) :
    ∀ {lo : Nat} {m : Memory}, lo ≤ a → m.risesFrom lo = true → (Memory.put a v m).risesFrom lo = true
  | lo, [], h, _ => by simp [Memory.put, Memory.risesFrom, h]
  | lo, (b, w) :: m, h, hm => by
    simp only [Memory.risesFrom, Bool.and_eq_true, decide_eq_true_eq] at hm
    simp only [Memory.put]
    split
    · next hab =>
      simp only [Memory.risesFrom, Bool.and_eq_true, decide_eq_true_eq]
      exact ⟨h, by omega, hm.2⟩
    · split
      · next hab => subst hab; simp [Memory.risesFrom, h, hm.2]
      · next h1 h2 =>
        simp only [Memory.risesFrom, Bool.and_eq_true, decide_eq_true_eq]
        exact ⟨hm.1, Memory.risesFrom_put a v (by omega) hm.2⟩

theorem Memory.risesFrom_unlist (a : Nat) :
    ∀ {lo : Nat} {m : Memory}, m.risesFrom lo = true → (Memory.unlist a m).risesFrom lo = true
  | _, [], _ => rfl
  | lo, (b, w) :: m, hm => by
    simp only [Memory.risesFrom, Bool.and_eq_true, decide_eq_true_eq] at hm
    simp only [Memory.unlist]
    split
    · exact Memory.risesFrom_mono (hi := b + 1) (by omega) (Memory.risesFrom_unlist a hm.2)
    · simp only [Memory.risesFrom, Bool.and_eq_true, decide_eq_true_eq]
      exact ⟨hm.1, Memory.risesFrom_unlist a hm.2⟩

theorem Memory.all_put (p : Host.Cell → Bool) (a : Nat) (v : Byte) (hp : p (a, v) = true) :
    ∀ {m : Memory}, m.all p = true → (Memory.put a v m).all p = true
  | [], _ => by simp [Memory.put, hp]
  | (b, w) :: m, hm => by
    simp only [List.all_cons, Bool.and_eq_true] at hm
    simp only [Memory.put]
    (repeat' split) <;> simp only [List.all_cons, Bool.and_eq_true]
    · exact ⟨hp, hm.1, hm.2⟩
    · exact ⟨hp, hm.2⟩
    · exact ⟨hm.1, Memory.all_put p a v hp hm.2⟩

theorem Memory.all_unlist (p : Host.Cell → Bool) (a : Nat) :
    ∀ {m : Memory}, m.all p = true → (Memory.unlist a m).all p = true
  | [], _ => rfl
  | (b, w) :: m, hm => by
    simp only [List.all_cons, Bool.and_eq_true] at hm
    simp only [Memory.unlist]
    split
    · exact Memory.all_unlist p a hm.2
    · simp only [List.all_cons, Bool.and_eq_true]
      exact ⟨hm.1, Memory.all_unlist p a hm.2⟩

/-- Writing a byte inside the memory keeps the canonical form. -/
theorem Memory.wf_writeByte {c : Config} {m : Memory} (h : Memory.wf c m = true) (a : Nat) (v : Byte)
    (ha : a < 4 * c.memWords) : Memory.wf c (Memory.writeByte c.memFill m a v) = true := by
  simp only [Memory.wf, Bool.and_eq_true] at h ⊢
  unfold Memory.writeByte
  split
  · exact ⟨Memory.risesFrom_unlist a h.1, Memory.all_unlist _ a h.2⟩
  · next hv => exact ⟨Memory.risesFrom_put a v (Nat.zero_le _) h.1, Memory.all_put _ a v (by simp [ha, hv]) h.2⟩

/-- Writing a word inside the memory keeps the canonical form. -/
theorem Memory.wf_writeWord {c : Config} {m : Memory} (h : Memory.wf c m = true) (i : Nat) (w : Word)
    (hi : i < c.memWords) : Memory.wf c (m.writeWord c.memFill i w) = true := by
  unfold Memory.writeWord
  exact Memory.wf_writeByte (Memory.wf_writeByte (Memory.wf_writeByte (Memory.wf_writeByte h _ _ (by omega)) _ _
    (by omega)) _ _ (by omega)) _ _ (by omega)

/-- The empty list is canonical. -/
theorem Memory.wf_nil (c : Config) : Memory.wf c [] = true := rfl

/-- A store keeps the canonical form; out of range it does nothing. -/
theorem State.writeWord_wf {s : State} (h : Memory.wf s.cfg s.mem = true) (a w : Word) :
    Memory.wf (s.writeWord a w).cfg (s.writeWord a w).mem = true := by
  unfold State.writeWord
  split
  · next hr => exact Memory.wf_writeWord h _ _ (by simpa [State.inRange] using hr)
  · exact h

/-! ## The word the core reaches -/

@[simp] theorem State.inRange_writeWord (s : State) (a w b : Word) : (s.writeWord a w).inRange b = s.inRange b := by
  simp [State.inRange]

@[simp] theorem State.inRange_writeReg (s : State) (i : RegIdx) (v b : Word) : (s.writeReg i v).inRange b = s.inRange b := by
  simp [State.inRange]

/-- Reading the word at an address after a store of a word (20_memory.md R53, R59). -/
theorem State.readWord_writeWord (s : State) (a w b : Word) :
    (s.writeWord a w).readWord b =
      if s.inRange a = true ∧ wordIndex b = wordIndex a then w else s.readWord b := by
  by_cases ha : s.inRange a = true
  · unfold State.readWord
    rw [State.inRange_writeWord]
    by_cases hb : s.inRange b = true
    · simp only [ha, hb, if_true, true_and, State.writeWord_cfg]
      simp only [State.writeWord, ha, if_true]
      rw [Memory.readWord_writeWord]
    · have : wordIndex b ≠ wordIndex a := fun e => hb (by simpa [State.inRange, e] using ha)
      simp [hb, this]
  · simp [State.writeWord, ha]

/-- Reading depends on memory and configuration only. -/
theorem State.readWord_congr {s t : State} (hm : t.mem = s.mem) (hc : t.cfg = s.cfg) (a : Word) :
    t.readWord a = s.readWord a := by
  unfold State.readWord State.inRange; rw [hm, hc]

/-- Only the word index of an address matters (20_memory.md R53). -/
theorem State.readWord_index (s : State) {a b : Word} (h : wordIndex a = wordIndex b) : s.readWord a = s.readWord b := by
  unfold State.readWord State.inRange; rw [h]

end Sys2Proof.Machine
end

