-- ==== Sys2Proof/Laws/Registers.lean ====
section
/-! SUPPORT. Reading registers after each update (10_state.md R20 to R23). -/

namespace Sys2Proof.Machine

/-- Reads of x0 yield 0 (10_state.md R21). -/
@[simp] theorem State.readReg_zero (s : State) : s.readReg 0#5 = 0#32 := rfl

/-- Reading depends on the register file only. -/
theorem State.readReg_congr {s t : State} (h : t.regs = s.regs) (i : RegIdx) : t.readReg i = s.readReg i := by
  unfold State.readReg; simp only [h]

/-- Reading after a write: the register written, unless it is x0 (10_state.md R21). -/
theorem State.readReg_writeReg (s : State) (i j : RegIdx) (v : Word) :
    (s.writeReg i v).readReg j = if j = i ∧ i ≠ 0#5 then v else s.readReg j := by
  unfold State.writeReg
  split
  · next h => simp [h]
  · next hi =>
    unfold State.readReg
    by_cases hj : j = 0#5
    · subst hj; simp [Ne.symm hi]
    · simp only [hj, if_false]
      by_cases hji : j = i
      · subst hji; simp [hi]
      · have : i.toNat ≠ j.toNat := fun e => hji (BitVec.eq_of_toNat_eq e.symm)
        simp [hji, this]

@[simp] theorem State.readReg_writeReg_self (s : State) (i : RegIdx) (v : Word) :
    (s.writeReg i v).readReg i = if i = 0#5 then 0#32 else v := by
  rw [State.readReg_writeReg]
  by_cases h : i = 0#5
  · subst h; simp
  · simp [h]

theorem State.readReg_writeReg_ne (s : State) {i j : RegIdx} (v : Word) (h : j ≠ i) :
    (s.writeReg i v).readReg j = s.readReg j := by
  rw [State.readReg_writeReg]; simp [h]

/-- Slot 0 of the register file is never written. -/
@[simp] theorem State.writeReg_slotZero (s : State) (i : RegIdx) (v : Word) :
    (s.writeReg i v).regs[0] = s.regs[0] := by
  unfold State.writeReg
  split
  · rfl
  · next h =>
    have : i.toNat ≠ 0 := fun e => h (BitVec.eq_of_toNat_eq (by simpa using e))
    simp [this]

@[simp] theorem State.readReg_jump (s : State) (v : Word) (i : RegIdx) : (s.jump v).readReg i = s.readReg i := rfl
@[simp] theorem State.readReg_advance (s : State) (i : RegIdx) : s.advance.readReg i = s.readReg i := rfl
@[simp] theorem State.readReg_raise (s : State) (c : Condition) (i : RegIdx) : (s.raise c).readReg i = s.readReg i := rfl
@[simp] theorem State.readReg_halt (s : State) (r : HaltReason) (i : RegIdx) : (s.halt r).readReg i = s.readReg i := rfl
@[simp] theorem State.readReg_beginStep (s : State) (i : RegIdx) : s.beginStep.readReg i = s.readReg i := rfl
@[simp] theorem State.readReg_writeWord (s : State) (a w : Word) (i : RegIdx) :
    (s.writeWord a w).readReg i = s.readReg i := State.readReg_congr (by simp) i

/-- A filled register file: x0 reads 0, every other register the fill (10_state.md R23). -/
theorem readReg_filledRegs {s : State} {v : Word} (h : s.regs = filledRegs v) (i : RegIdx) :
    s.readReg i = if i = 0#5 then 0#32 else v := by
  unfold State.readReg
  split
  · rfl
  · next hi =>
    have : (0 : Nat) ≠ i.toNat := fun e => hi (BitVec.eq_of_toNat_eq (by simpa using e.symm))
    simp [h, filledRegs, this]

@[simp] theorem filledRegs_slotZero (v : Word) : (filledRegs v)[0] = 0#32 := by
  simp [filledRegs]

end Sys2Proof.Machine
end

