-- ==== Sys2Proof/Laws/Access.lean ====
section
/-! SUPPORT. The sub-word accesses seen byte by byte (20_memory.md R54 to R61). -/

namespace Sys2Proof.Machine

theorem lane_lt (a : Word) : lane a < 4 := Nat.mod_lt _ (by decide)

/-- An address is its word index and its lane (20_memory.md R51). -/
theorem index_lane (a : Word) : a.toNat = 4 * wordIndex a + lane a := by
  unfold wordIndex lane; omega

/-- Two addresses with the same word index and lane are equal. -/
theorem address_ext {a b : Word} (hi : wordIndex a = wordIndex b) (hl : lane a = lane b) : a = b :=
  BitVec.eq_of_toNat_eq (by rw [index_lane a, index_lane b, hi, hl])

/-! ## Masks, one bit at a time -/

theorem mask8_getLsbD (i : Nat) : (0xFF#32 : Word).getLsbD i = decide (i < 8) := by
  by_cases h : i < 32
  · interval_cases i <;> rfl
  · rw [BitVec.getLsbD_of_ge _ _ (by omega), decide_eq_false (by omega)]

theorem mask16_getLsbD (i : Nat) : (0xFFFF#32 : Word).getLsbD i = decide (i < 16) := by
  by_cases h : i < 32
  · interval_cases i <;> rfl
  · rw [BitVec.getLsbD_of_ge _ _ (by omega), decide_eq_false (by omega)]

theorem mergeBits_getLsbD (old mask v : Word) {i : Nat} (hi : i < 32) :
    (mergeBits old mask v).getLsbD i = if mask.getLsbD i then v.getLsbD i else old.getLsbD i := by
  simp only [mergeBits, BitVec.getLsbD_or, BitVec.getLsbD_and, BitVec.getLsbD_not, hi, decide_true, Bool.true_and]
  cases mask.getLsbD i <;> simp

/-- Byte lanes of a byte merged into a word (20_memory.md R60): only lane `k` changes. -/
theorem byteLane_merge1 (old v : Word) {j k : Nat} (hj : j < 4) (hk : k < 4) :
    byteLane (mergeBits old (0xFF#32 <<< (8 * k)) ((v &&& 0xFF#32) <<< (8 * k))) j =
      if j = k then byteLane v 0 else byteLane old j := by
  refine BitVec.eq_of_getLsbD_eq fun i hi => ?_
  have hn : 8 * j + i < 32 := by omega
  simp only [byteLane, getLsbD_bits, hi, decide_true, Bool.true_and]
  rw [mergeBits_getLsbD _ _ _ hn]
  simp only [BitVec.getLsbD_shiftLeft, BitVec.getLsbD_and, mask8_getLsbD, hn, decide_true, Bool.true_and]
  by_cases h : j = k
  · subst h
    have e : 8 * j + i - 8 * j = i := by omega
    simp [e, hi, -BitVec.getLsbD_eq_getElem]
  · rw [if_neg h, getLsbD_bits, if_neg]
    · simp [hi, -BitVec.getLsbD_eq_getElem]
    · simp only [Bool.and_eq_true, Bool.not_eq_true', decide_eq_false_iff_not, decide_eq_true_eq, not_and]
      omega

/-- Byte lanes of a halfword merged into a word (20_memory.md R61): lanes `k` and `k + 1` change, and of those
only the ones the word has. -/
theorem byteLane_merge2 (old v : Word) {j k : Nat} (hj : j < 4) (hk : k < 4) :
    byteLane (mergeBits old (0xFFFF#32 <<< (8 * k)) ((v &&& 0xFFFF#32) <<< (8 * k))) j =
      if j = k then byteLane v 0 else if j = k + 1 then byteLane v 1 else byteLane old j := by
  refine BitVec.eq_of_getLsbD_eq fun i hi => ?_
  have hn : 8 * j + i < 32 := by omega
  simp only [byteLane, getLsbD_bits, hi, decide_true, Bool.true_and]
  rw [mergeBits_getLsbD _ _ _ hn]
  simp only [BitVec.getLsbD_shiftLeft, BitVec.getLsbD_and, mask16_getLsbD, hn, decide_true, Bool.true_and]
  by_cases h : j = k
  · subst h
    have e : 8 * j + i - 8 * j = i := by omega
    have h16 : i < 16 := by omega
    simp [e, hi, h16, -BitVec.getLsbD_eq_getElem]
  · by_cases h1 : j = k + 1
    · subst h1
      have e : 8 * (k + 1) + i - 8 * k = 8 + i := by omega
      have h16 : 8 + i < 16 := by omega
      have hge : ¬ 8 * (k + 1) + i < 8 * k := by omega
      simp [e, hi, h16, hge, -BitVec.getLsbD_eq_getElem]
    · rw [if_neg h, if_neg h1, getLsbD_bits, if_neg]
      · simp [hi, -BitVec.getLsbD_eq_getElem]
      · simp only [Bool.and_eq_true, Bool.not_eq_true', decide_eq_false_iff_not, decide_eq_true_eq, not_and]
        omega

/-! ## Reads -/

/-- A byte read is the address's lane of its word (20_memory.md R54, R55). -/
theorem State.memRead1_eq (s : State) (a : Word) : s.memRead1 a = byteLane (s.readWord a) (lane a) := by
  refine BitVec.eq_of_getLsbD_eq fun i hi => ?_
  simp only [State.memRead1, byteLane, getLsbD_bits, hi, decide_true, Bool.true_and, BitVec.getLsbD_setWidth,
    BitVec.getLsbD_and, mask8_getLsbD, BitVec.getLsbD_ushiftRight, Bool.and_true]

theorem State.memRead1_congr {s t : State} (hm : t.mem = s.mem) (hc : t.cfg = s.cfg) (a : Word) :
    t.memRead1 a = s.memRead1 a := by
  rw [State.memRead1_eq, State.memRead1_eq, State.readWord_congr hm hc]

@[simp] theorem State.memRead1_writeReg (s : State) (i : RegIdx) (v a : Word) :
    (s.writeReg i v).memRead1 a = s.memRead1 a := State.memRead1_congr (by simp) (by simp) a

@[simp] theorem State.memRead1_jump (s : State) (v a : Word) : (s.jump v).memRead1 a = s.memRead1 a := rfl

@[simp] theorem State.memRead1_halt (s : State) (r : HaltReason) (a : Word) : (s.halt r).memRead1 a = s.memRead1 a := rfl

/-- Out of range a byte reads 0 (20_memory.md R52). -/
theorem State.memRead1_outOfRange {s : State} {a : Word} (h : s.inRange a = false) : s.memRead1 a = 0#8 := by
  simp [State.memRead1, State.readWord, h]

/-- A halfword read has a value exactly where it is not stuck (20_memory.md R56). -/
theorem State.memRead2_eq (s : State) (a : Word) :
    s.memRead2 a =
      if s.inRange a = true ∧ lane a = 3 ∧ s.cfg.misalignedSubword = .stuck then .error .halfwordStuck
      else .ok (((s.readWord a >>> (8 * lane a)) &&& 0xFFFF#32).setWidth 16) := by
  unfold State.memRead2
  simp only [Bool.and_eq_true, decide_eq_true_eq, and_assoc]

/-- The value of a halfword read: the byte at the address, and the next one of the same word (20_memory.md R56). -/
theorem State.memRead2_value (s : State) (a : Word) (i : Nat) (hi : i < 16) :
    (((s.readWord a >>> (8 * lane a)) &&& 0xFFFF#32).setWidth 16).getLsbD i =
      if i < 8 then (byteLane (s.readWord a) (lane a)).getLsbD i
      else if lane a = 3 then false else (byteLane (s.readWord a) (lane a + 1)).getLsbD (i - 8) := by
  have hl := lane_lt a
  simp only [byteLane, getLsbD_bits, hi, decide_true, Bool.true_and, BitVec.getLsbD_setWidth,
    BitVec.getLsbD_and, mask16_getLsbD, BitVec.getLsbD_ushiftRight, Bool.and_true]
  split
  · next h8 => rw [decide_eq_true h8, Bool.true_and]
  · split
    · rw [BitVec.getLsbD_of_ge _ _ (by omega)]
    · rw [decide_eq_true (by omega), Bool.true_and]; congr 1; omega

/-! ## Writes -/

/-- Every byte after a word is stored (20_memory.md R59). -/
theorem State.memRead1_writeWord (s : State) (a w b : Word) :
    (s.writeWord a w).memRead1 b =
      if s.inRange a = true ∧ wordIndex b = wordIndex a then byteLane w (lane b) else s.memRead1 b := by
  rw [State.memRead1_eq, State.readWord_writeWord, State.memRead1_eq]
  split <;> rfl

/-- Every byte after a byte is stored (20_memory.md R60). -/
theorem State.memRead1_memWrite1 (s : State) (a v b : Word) :
    (s.memWrite1 a v).memRead1 b = if s.inRange a = true ∧ b = a then byteLane v 0 else s.memRead1 b := by
  unfold State.memWrite1
  rw [State.memRead1_writeWord]
  by_cases h : s.inRange a = true ∧ wordIndex b = wordIndex a
  · rw [if_pos h, byteLane_merge1 _ _ (lane_lt b) (lane_lt a)]
    by_cases hl : lane b = lane a
    · have : b = a := address_ext h.2 hl
      rw [if_pos hl, if_pos ⟨h.1, this⟩]
    · have : ¬ b = a := fun e => hl (by rw [e])
      rw [if_neg hl, if_neg (fun e => this e.2), State.memRead1_eq, State.readWord_index s h.2]
  · rw [if_neg h, if_neg]
    rintro ⟨h1, rfl⟩
    exact h ⟨h1, rfl⟩

/-- The two outcomes of a halfword store (20_memory.md R61). -/
theorem State.memWrite2_eq (s : State) (a v : Word) :
    s.memWrite2 a v =
      if s.inRange a = true ∧ lane a = 3 ∧ s.cfg.misalignedSubword = .stuck then .error .halfwordStuck
      else .ok (s.writeWord a (mergeBits (s.readWord a) (0xFFFF#32 <<< (8 * lane a))
        ((v &&& 0xFFFF#32) <<< (8 * lane a)))) := by
  unfold State.memWrite2
  simp only [Bool.and_eq_true, decide_eq_true_eq, and_assoc]

/-- Every byte after a halfword is stored (20_memory.md R61): the byte at the address, and the next one of the
same word. -/
theorem State.memRead1_memWrite2 {s t : State} {a v : Word} (h : s.memWrite2 a v = .ok t) (b : Word) :
    t.memRead1 b =
      if s.inRange a = true ∧ wordIndex b = wordIndex a ∧ lane b = lane a then byteLane v 0
      else if s.inRange a = true ∧ wordIndex b = wordIndex a ∧ lane b = lane a + 1 then byteLane v 1
      else s.memRead1 b := by
  rw [State.memWrite2_eq] at h
  split at h
  · cases h
  · cases h
    rw [State.memRead1_writeWord]
    by_cases hw : s.inRange a = true ∧ wordIndex b = wordIndex a
    · rw [if_pos hw, byteLane_merge2 _ _ (lane_lt b) (lane_lt a)]
      simp only [hw.1, hw.2, true_and]
      split
      · rfl
      · split
        · rfl
        · rw [State.memRead1_eq, State.readWord_index s hw.2]
    · rw [if_neg hw, if_neg (fun e => hw ⟨e.1, e.2.1⟩), if_neg (fun e => hw ⟨e.1, e.2.1⟩)]

/-- A store writes one word or nothing. -/
theorem State.memWrite2_writes {s t : State} {a v : Word} (h : s.memWrite2 a v = .ok t) :
    ∃ w, t = s.writeWord a w := by
  rw [State.memWrite2_eq] at h
  split at h
  · cases h
  · exact ⟨_, by cases h; rfl⟩

end Sys2Proof.Machine
end

