-- ==== Sys2Proof/Laws/Decode.lean ====
section
/-! SUPPORT. The fields of an encoded word, and when a word's key is an operation's. -/

namespace Sys2Proof

/-! ## Fields of the encoded formats -/

section fields

variable (k : Key) (a b c : BitVec 5)

theorem encodeR_opcode : bits (encodeR k a b c) 0 7 = k.opcode := by
  refine BitVec.eq_of_getLsbD_eq fun i hi => ?_
  simp only [getLsbD_bits, encodeR_getLsbD, hi, decide_true, Bool.true_and, Nat.zero_add, if_true]

theorem encodeR_rd : bits (encodeR k a b c) 7 5 = c := by
  refine BitVec.eq_of_getLsbD_eq fun i hi => ?_
  simp only [getLsbD_bits, encodeR_getLsbD, hi, decide_true, Bool.true_and]
  (repeat' split) <;> first | omega | (congr 1; omega)

theorem encodeR_funct3 : bits (encodeR k a b c) 12 3 = k.funct3 := by
  refine BitVec.eq_of_getLsbD_eq fun i hi => ?_
  simp only [getLsbD_bits, encodeR_getLsbD, hi, decide_true, Bool.true_and]
  (repeat' split) <;> first | omega | (congr 1; omega)

theorem encodeR_rs1 : bits (encodeR k a b c) 15 5 = b := by
  refine BitVec.eq_of_getLsbD_eq fun i hi => ?_
  simp only [getLsbD_bits, encodeR_getLsbD, hi, decide_true, Bool.true_and]
  (repeat' split) <;> first | omega | (congr 1; omega)

theorem encodeR_rs2 : bits (encodeR k a b c) 20 5 = a := by
  refine BitVec.eq_of_getLsbD_eq fun i hi => ?_
  simp only [getLsbD_bits, encodeR_getLsbD, hi, decide_true, Bool.true_and]
  (repeat' split) <;> first | omega | (congr 1; omega)

theorem encodeR_funct7 : bits (encodeR k a b c) 25 7 = k.funct7 := by
  refine BitVec.eq_of_getLsbD_eq fun i hi => ?_
  simp only [getLsbD_bits, encodeR_getLsbD, hi, decide_true, Bool.true_and]
  (repeat' split) <;> first | omega | (congr 1; omega)

variable (imm : BitVec 12)

theorem encodeI_opcode : bits (encodeI k imm a b) 0 7 = k.opcode := by
  refine BitVec.eq_of_getLsbD_eq fun i hi => ?_
  simp only [getLsbD_bits, encodeI_getLsbD, hi, decide_true, Bool.true_and, Nat.zero_add, if_true]

theorem encodeI_rd : bits (encodeI k imm a b) 7 5 = b := by
  refine BitVec.eq_of_getLsbD_eq fun i hi => ?_
  simp only [getLsbD_bits, encodeI_getLsbD, hi, decide_true, Bool.true_and]
  (repeat' split) <;> first | omega | (congr 1; omega)

theorem encodeI_funct3 : bits (encodeI k imm a b) 12 3 = k.funct3 := by
  refine BitVec.eq_of_getLsbD_eq fun i hi => ?_
  simp only [getLsbD_bits, encodeI_getLsbD, hi, decide_true, Bool.true_and]
  (repeat' split) <;> first | omega | (congr 1; omega)

theorem encodeI_rs1 : bits (encodeI k imm a b) 15 5 = a := by
  refine BitVec.eq_of_getLsbD_eq fun i hi => ?_
  simp only [getLsbD_bits, encodeI_getLsbD, hi, decide_true, Bool.true_and]
  (repeat' split) <;> first | omega | (congr 1; omega)

theorem encodeI_imm : bits (encodeI k imm a b) 20 12 = imm := by
  refine BitVec.eq_of_getLsbD_eq fun i hi => ?_
  simp only [getLsbD_bits, encodeI_getLsbD, hi, decide_true, Bool.true_and]
  (repeat' split) <;> first | omega | (congr 1; omega)

theorem encodeS_opcode : bits (encodeS k imm a b) 0 7 = k.opcode := by
  refine BitVec.eq_of_getLsbD_eq fun i hi => ?_
  simp only [getLsbD_bits, encodeS_getLsbD, hi, decide_true, Bool.true_and, Nat.zero_add, if_true]

theorem encodeS_funct3 : bits (encodeS k imm a b) 12 3 = k.funct3 := by
  refine BitVec.eq_of_getLsbD_eq fun i hi => ?_
  simp only [getLsbD_bits, encodeS_getLsbD, hi, decide_true, Bool.true_and]
  (repeat' split) <;> first | omega | (congr 1; omega)

theorem encodeS_rs1 : bits (encodeS k imm a b) 15 5 = b := by
  refine BitVec.eq_of_getLsbD_eq fun i hi => ?_
  simp only [getLsbD_bits, encodeS_getLsbD, hi, decide_true, Bool.true_and]
  (repeat' split) <;> first | omega | (congr 1; omega)

theorem encodeS_rs2 : bits (encodeS k imm a b) 20 5 = a := by
  refine BitVec.eq_of_getLsbD_eq fun i hi => ?_
  simp only [getLsbD_bits, encodeS_getLsbD, hi, decide_true, Bool.true_and]
  (repeat' split) <;> first | omega | (congr 1; omega)

theorem encodeS_imm : (Fields.ofWord (encodeS k imm a b)).immS = imm := by
  refine BitVec.eq_of_getLsbD_eq fun i hi => ?_
  simp only [immS_getLsbD, encodeS_getLsbD]
  (repeat' split) <;> first | omega | (congr 1; omega)

variable (off : BitVec 13)

theorem encodeSB_opcode : bits (encodeSB k off a b) 0 7 = k.opcode := by
  refine BitVec.eq_of_getLsbD_eq fun i hi => ?_
  simp only [getLsbD_bits, encodeSB_getLsbD, hi, decide_true, Bool.true_and, Nat.zero_add, if_true]

theorem encodeSB_funct3 : bits (encodeSB k off a b) 12 3 = k.funct3 := by
  refine BitVec.eq_of_getLsbD_eq fun i hi => ?_
  simp only [getLsbD_bits, encodeSB_getLsbD, hi, decide_true, Bool.true_and]
  (repeat' split) <;> first | omega | (congr 1; omega)

theorem encodeSB_rs1 : bits (encodeSB k off a b) 15 5 = b := by
  refine BitVec.eq_of_getLsbD_eq fun i hi => ?_
  simp only [getLsbD_bits, encodeSB_getLsbD, hi, decide_true, Bool.true_and]
  (repeat' split) <;> first | omega | (congr 1; omega)

theorem encodeSB_rs2 : bits (encodeSB k off a b) 20 5 = a := by
  refine BitVec.eq_of_getLsbD_eq fun i hi => ?_
  simp only [getLsbD_bits, encodeSB_getLsbD, hi, decide_true, Bool.true_and]
  (repeat' split) <;> first | omega | (congr 1; omega)

/-- The branch offset comes back, given that its bit 0, which is not encoded, is zero. -/
theorem encodeSB_offset (h : evenOffset off = true) : immBOf (encodeSB k off a b) = off := by
  have h0 : off.getLsbD 0 = false := by simpa [evenOffset] using h
  refine BitVec.eq_of_getLsbD_eq fun i hi => ?_
  interval_cases i <;> simp [immBOf_getLsbD, encodeSB_getLsbD, -BitVec.getLsbD_eq_getElem, h0]

variable (offJ : BitVec 21)

theorem encodeUJ_opcode : bits (encodeUJ k offJ a) 0 7 = k.opcode := by
  refine BitVec.eq_of_getLsbD_eq fun i hi => ?_
  simp only [getLsbD_bits, encodeUJ_getLsbD, hi, decide_true, Bool.true_and, Nat.zero_add, if_true]

theorem encodeUJ_rd : bits (encodeUJ k offJ a) 7 5 = a := by
  refine BitVec.eq_of_getLsbD_eq fun i hi => ?_
  simp only [getLsbD_bits, encodeUJ_getLsbD, hi, decide_true, Bool.true_and]
  (repeat' split) <;> first | omega | (congr 1; omega)

/-- The jump offset comes back, given that its bit 0, which is not encoded, is zero. -/
theorem encodeUJ_offset (h : evenOffset offJ = true) : immJOf (encodeUJ k offJ a) = offJ := by
  have h0 : offJ.getLsbD 0 = false := by simpa [evenOffset] using h
  refine BitVec.eq_of_getLsbD_eq fun i hi => ?_
  interval_cases i <;> simp [immJOf_getLsbD, encodeUJ_getLsbD, -BitVec.getLsbD_eq_getElem, h0]

variable (immU : BitVec 20)

theorem encodeU_opcode : bits (encodeU k immU a) 0 7 = k.opcode := by
  refine BitVec.eq_of_getLsbD_eq fun i hi => ?_
  simp only [getLsbD_bits, encodeU_getLsbD, hi, decide_true, Bool.true_and, Nat.zero_add, if_true]

theorem encodeU_rd : bits (encodeU k immU a) 7 5 = a := by
  refine BitVec.eq_of_getLsbD_eq fun i hi => ?_
  simp only [getLsbD_bits, encodeU_getLsbD, hi, decide_true, Bool.true_and]
  (repeat' split) <;> first | omega | (congr 1; omega)

theorem encodeU_imm : bits (encodeU k immU a) 12 20 = immU := by
  refine BitVec.eq_of_getLsbD_eq fun i hi => ?_
  simp only [getLsbD_bits, encodeU_getLsbD, hi, decide_true, Bool.true_and]
  (repeat' split) <;> first | omega | (congr 1; omega)

end fields

/-! ## Every word is put together from its fields -/

section rebuild

variable (k : Key) (w : Word)

theorem encodeR_fields (h0 : bits w 0 7 = k.opcode) (h3 : bits w 12 3 = k.funct3) (h7 : bits w 25 7 = k.funct7) :
    encodeR k (bits w 20 5) (bits w 15 5) (bits w 7 5) = w := by
  refine word_ext fun i hi => ?_
  simp only [encodeR_getLsbD, ← h0, ← h3, ← h7, getLsbD_bits]
  (repeat' split) <;> rw [decide_eq_true (by omega), Bool.true_and] <;> congr 1 <;> omega

theorem encodeI_fields (h0 : bits w 0 7 = k.opcode) (h3 : bits w 12 3 = k.funct3) :
    encodeI k (bits w 20 12) (bits w 15 5) (bits w 7 5) = w := by
  refine word_ext fun i hi => ?_
  simp only [encodeI_getLsbD, ← h0, ← h3, getLsbD_bits]
  (repeat' split) <;> rw [decide_eq_true (by omega), Bool.true_and] <;> congr 1 <;> omega

theorem encodeS_fields (h0 : bits w 0 7 = k.opcode) (h3 : bits w 12 3 = k.funct3) :
    encodeS k (Fields.ofWord w).immS (bits w 20 5) (bits w 15 5) = w := by
  refine word_ext fun i hi => ?_
  simp only [encodeS_getLsbD, ← h0, ← h3, getLsbD_bits, immS_getLsbD]
  (repeat' split) <;>
    first
      | omega
      | rfl
      | (congr 1; omega)
      | (rw [decide_eq_true (by omega), Bool.true_and]; congr 1; omega)

theorem encodeSB_fields (h0 : bits w 0 7 = k.opcode) (h3 : bits w 12 3 = k.funct3) :
    encodeSB k (immBOf w) (bits w 20 5) (bits w 15 5) = w := by
  refine word_ext fun i hi => ?_
  interval_cases i <;>
    simp [encodeSB_getLsbD, ← h0, ← h3, immBOf_getLsbD, -BitVec.getLsbD_eq_getElem]

theorem encodeU_fields (h0 : bits w 0 7 = k.opcode) : encodeU k (bits w 12 20) (bits w 7 5) = w := by
  refine word_ext fun i hi => ?_
  simp only [encodeU_getLsbD, ← h0, getLsbD_bits]
  (repeat' split) <;>
    rw [decide_eq_true (by omega), Bool.true_and] <;> congr 1 <;> omega

theorem encodeUJ_fields (h0 : bits w 0 7 = k.opcode) : encodeUJ k (immJOf w) (bits w 7 5) = w := by
  refine word_ext fun i hi => ?_
  interval_cases i <;>
    simp [encodeUJ_getLsbD, ← h0, immJOf_getLsbD, -BitVec.getLsbD_eq_getElem]

end rebuild

/-! ## Dispatch -/

/-- Each entry's own key finds it: no two entries share a key (30_encoding.md R101). -/
theorem dispatch_key (o : Op) : dispatch o.key = some o := by cases o <;> rfl

theorem dispatch_eq_some {k : Key} {o : Op} : dispatch k = some o ↔ o.key = k := by
  constructor
  · intro h
    simpa using List.find?_some h
  · rintro rfl
    exact dispatch_key o

/-- What decoding a word to an instruction means: its key is an entry's, the operands are its fields. -/
theorem decode_eq_hit {w : Word} {i : Instr} :
    decode w = .hit i ↔ ∃ o : Op, (Fields.ofWord w).key = some o.key ∧ (Fields.ofWord w).instr o = i := by
  unfold decode
  constructor
  · intro h
    split at h
    · next o ho =>
      obtain ⟨k, hk, hd⟩ := Option.bind_eq_some_iff.mp ho
      refine ⟨o, ?_, by simpa using h⟩
      rw [hk, dispatch_eq_some.mp hd]
    · cases h
  · rintro ⟨o, hk, rfl⟩
    simp [hk, dispatch_key]

theorem decode_eq_notFound {w : Word} {info : MissInfo} :
    decode w = .instructionNotFound info ↔
      (∀ o : Op, (Fields.ofWord w).key ≠ some o.key) ∧ (Fields.ofWord w).missInfo = info := by
  unfold decode
  constructor
  · intro h
    split at h
    · cases h
    · next hn =>
      refine ⟨fun o ho => ?_, by simpa using h⟩
      simp [ho, dispatch_key] at hn
  · rintro ⟨hno, rfl⟩
    split
    · next o ho =>
      obtain ⟨k, hk, hd⟩ := Option.bind_eq_some_iff.mp ho
      exact absurd (by rw [hk, dispatch_eq_some.mp hd]) (hno o)
    · rfl

theorem instr_op (f : Fields) (o : Op) : (f.instr o).op = o := by cases o <;> rfl

theorem majorOf_eq_some {opc : BitVec 7} {m : Major} (h : majorOf opc = some m) : m.opcode = opc := by
  simpa using List.find?_some h

theorem Major.key_opcode (m : Major) (f3 : BitVec 3) (f7 : BitVec 7) (f12 : BitVec 12) :
    (m.key f3 f7 f12).opcode = m.opcode := by
  cases m <;> first | rfl | (simp only [Major.key]; split <;> rfl)

/-- Whether an entry's key holds funct3, funct7, funct12 (30_encoding.md R98). -/
def Op.keeps : Op → Bool × Bool × Bool
  | .lui | .auipc | .jal => (false, false, false)
  | .slli | .srli | .srai => (true, true, false)
  | .add | .sub | .sll | .slt | .sltu | .xor | .srl | .sra | .or | .and => (true, true, false)
  | .ecall | .ebreak => (true, false, true)
  | _ => (true, false, false)

/-- When a word's key is an entry's: the fields the entry keeps are equal (30_encoding.md R98, R100). -/
theorem Fields.key_eq_some {f : Fields} {o : Op} :
    f.key = some o.key ↔
      f.opcode = o.key.opcode ∧ (o.keeps.1 → f.funct3 = o.key.funct3)
        ∧ (o.keeps.2.1 → f.funct7 = o.key.funct7) ∧ (o.keeps.2.2 → f.funct12 = o.key.funct12) := by
  have hop : f.key = some o.key → f.opcode = o.key.opcode := by
    intro h
    obtain ⟨m, hm, hk⟩ := Option.map_eq_some_iff.mp h
    rw [← hk, Major.key_opcode, majorOf_eq_some hm]
  constructor
  · intro h
    have h0 := hop h
    refine ⟨h0, ?_⟩
    unfold Fields.key at h
    rw [h0] at h
    cases o <;>
      simp [Op.key, majorOf, Major.all, Major.opcode, Major.key, Op.keeps] at h ⊢ <;>
      first
        | exact h
        | (split at h <;> simp_all)
  · rintro ⟨h0, h3, h7, h12⟩
    unfold Fields.key
    rw [h0]
    cases o <;> simp [Op.keeps, Op.key] at h3 h7 h12 <;>
      simp [Op.key, majorOf, Major.all, Major.opcode, Major.key, h3, h7, h12]

/-- A word with the fields an entry keeps decodes to that entry's instruction. -/
theorem decode_of_fields {w : Word} (o : Op) (h0 : bits w 0 7 = o.key.opcode)
    (h3 : o.keeps.1 → bits w 12 3 = o.key.funct3) (h7 : o.keeps.2.1 → bits w 25 7 = o.key.funct7)
    (h12 : o.keeps.2.2 → bits w 20 12 = o.key.funct12) : decode w = .hit ((Fields.ofWord w).instr o) :=
  decode_eq_hit.mpr ⟨o, Fields.key_eq_some.mpr ⟨h0, h3, h7, h12⟩, rfl⟩

/-! ## The key of an encoded word, by format -/

theorem key_encodeR (o : Op) (h : o.keeps.2.2 = false) (a b c : BitVec 5) :
    (Fields.ofWord (encodeR o.key a b c)).key = some o.key :=
  Fields.key_eq_some.mpr ⟨encodeR_opcode .., fun _ => encodeR_funct3 .., fun _ => encodeR_funct7 .., by simp [h]⟩

theorem key_encodeI (o : Op) (h : o.keeps = (true, false, false)) (imm : BitVec 12) (a b : BitVec 5) :
    (Fields.ofWord (encodeI o.key imm a b)).key = some o.key :=
  Fields.key_eq_some.mpr ⟨encodeI_opcode .., fun _ => encodeI_funct3 .., by simp [h], by simp [h]⟩

theorem key_encodeI_system (o : Op) (h : o.keeps = (true, false, true)) (a b : BitVec 5) :
    (Fields.ofWord (encodeI o.key o.key.funct12 a b)).key = some o.key :=
  Fields.key_eq_some.mpr ⟨encodeI_opcode .., fun _ => encodeI_funct3 .., by simp [h], fun _ => encodeI_imm ..⟩

theorem key_encodeS (o : Op) (h : o.keeps = (true, false, false)) (imm : BitVec 12) (a b : BitVec 5) :
    (Fields.ofWord (encodeS o.key imm a b)).key = some o.key :=
  Fields.key_eq_some.mpr ⟨encodeS_opcode .., fun _ => encodeS_funct3 .., by simp [h], by simp [h]⟩

theorem key_encodeSB (o : Op) (h : o.keeps = (true, false, false)) (off : BitVec 13) (a b : BitVec 5) :
    (Fields.ofWord (encodeSB o.key off a b)).key = some o.key :=
  Fields.key_eq_some.mpr ⟨encodeSB_opcode .., fun _ => encodeSB_funct3 .., by simp [h], by simp [h]⟩

theorem key_encodeU (o : Op) (h : o.keeps = (false, false, false)) (imm : BitVec 20) (a : BitVec 5) :
    (Fields.ofWord (encodeU o.key imm a)).key = some o.key :=
  Fields.key_eq_some.mpr ⟨encodeU_opcode .., by simp [h], by simp [h], by simp [h]⟩

theorem key_encodeUJ (o : Op) (h : o.keeps = (false, false, false)) (off : BitVec 21) (a : BitVec 5) :
    (Fields.ofWord (encodeUJ o.key off a)).key = some o.key :=
  Fields.key_eq_some.mpr ⟨encodeUJ_opcode .., by simp [h], by simp [h], by simp [h]⟩

end Sys2Proof
end

