-- ==== Sys2Proof/Laws/Exec.lean ====
section
/-! SUPPORT. What each shape of instruction does, and everything any instruction can do. -/

namespace Sys2Proof.Machine

/-! ## The shapes -/

/-- Writing a register sets that register and nothing else. -/
theorem setsOnlyRegister_writeReg (s : State) (rd : RegIdx) (v : Word) : SetsOnlyRegister s (s.writeReg rd v) rd v where
  dest := State.readReg_writeReg_self s rd v
  others := fun _ h => State.readReg_writeReg_ne s v h
  memory := fun a => State.memRead1_writeReg s rd v a
  pc := ⟨by simp, by simp⟩
  control := ⟨by simp, by simp, by simp, by simp, by simp, by simp, by simp, by simp, by simp⟩

/-- Writing a word of memory changes no other state. -/
theorem setsOnlyMemory_writeWord (s : State) (a w : Word) (byte : Word → Byte)
    (h : ∀ b, (s.writeWord a w).memRead1 b = byte b) : SetsOnlyMemory s (s.writeWord a w) byte where
  memory := h
  regs := fun r => State.readReg_writeWord s a w r
  pc := ⟨by simp, by simp⟩
  control := ⟨by simp, by simp, by simp, by simp, by simp, by simp, by simp, by simp, by simp⟩

/-- A redirect changes `pc` and the redirect flag and nothing else. -/
theorem jumpsOnly_jump (s : State) (v : Word) : JumpsOnly s (s.jump v) v where
  pc := rfl
  redirect := rfl
  regs := fun _ => rfl
  memory := fun _ => rfl
  control := ⟨rfl, rfl, rfl, rfl, rfl, rfl, rfl, rfl, rfl⟩

/-- A redirect with a link. -/
theorem jumpsAndLinks_jump (s : State) (v : Word) (rd : RegIdx) (l : Word) :
    JumpsAndLinks s ((s.jump v).writeReg rd l) v rd l where
  pc := by simp
  redirect := by simp
  dest := State.readReg_writeReg_self _ rd l
  others := fun _ h => State.readReg_writeReg_ne _ l h
  memory := fun a => State.memRead1_writeReg _ rd l a
  control := ⟨by simp, by simp, by simp, by simp, by simp, by simp, by simp, by simp, by simp⟩

/-! ## Halfword accesses -/

/-- The address one above, inside the same word. -/
theorem next_in_word {a : Word} (h : lane a ≠ 3) :
    wordIndex (a + 1#32) = wordIndex a ∧ lane (a + 1#32) = lane a + 1 := by
  have hl := lane_lt a
  have hx := a.isLt
  have e : (a + 1#32).toNat = a.toNat + 1 := by
    rw [BitVec.toNat_add]
    have : (1#32 : Word).toNat = 1 := rfl
    unfold lane at h hl
    omega
  unfold wordIndex lane at *
  omega

/-- A halfword read that has a step gives the byte at the address and the next one of the same word
(20_memory.md R56). -/
theorem memRead2_ok {s : State} {a : Word} (h : ¬ HalfwordStuck s a) :
    s.memRead2 a = .ok ((if lane a = 3 then 0#8 else s.memRead1 (a + 1#32)) ++ s.memRead1 a) := by
  have h' : ¬ (s.inRange a = true ∧ lane a = 3 ∧ s.cfg.misalignedSubword = .stuck) := h
  rw [State.memRead2_eq, if_neg h']
  congr 1
  refine BitVec.eq_of_getLsbD_eq fun i hi => ?_
  rw [State.memRead2_value s a i hi, BitVec.getLsbD_append, State.memRead1_eq]
  split
  · rfl
  · split
    · simp
    · next h3 =>
      obtain ⟨h1, h2⟩ := next_in_word h3
      rw [State.memRead1_eq, h2, State.readWord_index s h1]

/-- A halfword read with no step (20_memory.md R56). -/
theorem memRead2_stuck {s : State} {a : Word} (h : HalfwordStuck s a) : s.memRead2 a = .error .halfwordStuck := by
  have h' : s.inRange a = true ∧ lane a = 3 ∧ s.cfg.misalignedSubword = .stuck := h
  rw [State.memRead2_eq, if_pos h']

/-- A halfword store that has a step (20_memory.md R61). -/
theorem memWrite2_ok {s : State} {a : Word} (h : ¬ HalfwordStuck s a) (v : Word) :
    ∃ t, s.memWrite2 a v = .ok t := by
  have h' : ¬ (s.inRange a = true ∧ lane a = 3 ∧ s.cfg.misalignedSubword = .stuck) := h
  rw [State.memWrite2_eq, if_neg h']
  exact ⟨_, rfl⟩

/-- A halfword store with no step (20_memory.md R61). -/
theorem memWrite2_stuck {s : State} {a : Word} (h : HalfwordStuck s a) (v : Word) :
    s.memWrite2 a v = .error .halfwordStuck := by
  have h' : s.inRange a = true ∧ lane a = 3 ∧ s.cfg.misalignedSubword = .stuck := h
  rw [State.memWrite2_eq, if_pos h']

/-! ## Everything an instruction can do -/

/-- The effects an executed instruction can have. -/
inductive Effect (i : Instr) (s : State) : State → Prop
  /-- FENCE, an ECALL under `NOP`, a branch not taken. -/
  | nothing : i.writes = none → Effect i s s
  /-- The ALU, loads, LUI, AUIPC. -/
  | register (rd : RegIdx) (v : Word) : i.writes = some rd → i.isControlTransfer = false → Effect i s (s.writeReg rd v)
  /-- The stores. -/
  | store (a w : Word) : i.isStore = true → i.writes = none → Effect i s (s.writeWord a w)
  /-- A taken branch. -/
  | redirect (v : Word) : i.isControlTransfer = true → i.writes = none → Effect i s (s.jump v)
  /-- JAL and JALR. -/
  | link (rd : RegIdx) (v l : Word) : i.isControlTransfer = true → i.writes = some rd →
      Effect i s ((s.jump v).writeReg rd l)
  /-- An ECALL under `HALT`. -/
  | halts (rd rs1 : RegIdx) : i = .ecall rd rs1 → s.cfg.ecallAction = .halt → Effect i s (s.halt .ecall)
  /-- EBREAK. -/
  | toggles (rd rs1 : RegIdx) : i = .ebreak rd rs1 → Effect i s { s with stepMode := !s.stepMode }

/-- A branch answers a redirect or nothing (44_control_transfer.md R180). -/
theorem branch_cases {cond : Word → Word → Bool} {rs1 rs2 : RegIdx} {off : BitVec 13} {s t : State}
    (h : branch cond rs1 rs2 off s = .next t) : t = s.jump (s.pcTarget off) ∨ t = s := by
  unfold branch at h
  split at h <;> cases h <;> simp

/-- A halfword load writes its register or has no step (20_memory.md R56). -/
theorem loadHalf_cases {f : Half → Word} {rd rs1 : RegIdx} {imm : BitVec 12} {s t : State}
    (h : loadHalf f rd rs1 imm s = .next t) : ∃ v, t = s.writeReg rd v := by
  unfold loadHalf at h
  split at h
  · exact ⟨_, by cases h; rfl⟩
  · cases h

/-- Everything an instruction can do, once. -/
theorem exec_effect {i : Instr} {s t : State} (h : exec i s = .next t) : Effect i s t := by
  cases i with
  | beq | bne | blt | bge | bltu | bgeu =>
    simp only [exec, execBeq, execBne, execBlt, execBge, execBltu, execBgeu] at h
    obtain rfl | rfl := branch_cases h
    · exact .redirect _ rfl rfl
    · exact .nothing rfl
  | jal | jalr => cases h; exact .link _ _ _ rfl rfl
  | lh | lhu =>
    simp only [exec, execLh, execLhu] at h
    obtain ⟨v, rfl⟩ := loadHalf_cases h
    exact .register _ _ rfl rfl
  | sb | sw => cases h; exact .store _ _ rfl rfl
  | sh rs2 rs1 imm =>
    simp only [exec, execSh] at h
    split at h
    · next u hu =>
      cases h
      obtain ⟨w, rfl⟩ := State.memWrite2_writes hu
      exact .store _ _ rfl rfl
    · cases h
  | fence => cases h; exact .nothing rfl
  | ecall rd rs1 =>
    simp only [exec, execEcall] at h
    split at h <;> cases h
    · next ha => exact .halts _ _ rfl ha
    · exact .nothing rfl
  | ebreak => cases h; exact .toggles _ _ rfl
  | _ => cases h; exact .register _ _ rfl rfl

/-! ## What every instruction keeps -/

/-- The control state and outputs no instruction's own effect changes. -/
structure KeepsOutputs (s t : State) : Prop where
  cfg : t.cfg = s.cfg
  missCount : t.missCount = s.missCount
  debugLog : t.debugLog = s.debugLog
  hostQueue : t.hostQueue = s.hostQueue
  traceOut : t.traceOut = s.traceOut
  raised : t.raised = s.raised
  dumpOut : t.dumpOut = s.dumpOut

/-- No instruction's own effect changes the miss count, the outputs, the queue or the configuration. -/
theorem exec_keepsOutputs {i : Instr} {s t : State} (h : exec i s = .next t) : KeepsOutputs s t := by
  cases exec_effect h with
  | nothing | halts | toggles => exact ⟨rfl, rfl, rfl, rfl, rfl, rfl, rfl⟩
  | _ => constructor <;> simp

/-- An instruction changes the run state only as an ECALL under `HALT` (46_system.md R211). -/
theorem exec_runState {i : Instr} {s t : State} (h : exec i s = .next t) :
    t.runState = s.runState ∨
      (∃ rd rs1, i = .ecall rd rs1) ∧ s.cfg.ecallAction = .halt ∧ t = s.halt .ecall := by
  cases exec_effect h with
  | halts rd rs1 hi ha => exact .inr ⟨⟨rd, rs1, hi⟩, ha, rfl⟩
  | _ => left; simp

/-- An instruction changes step mode only as an EBREAK (46_system.md R212). -/
theorem exec_stepMode {i : Instr} {s t : State} (h : exec i s = .next t) :
    t.stepMode = s.stepMode ∨ (∃ rd rs1, i = .ebreak rd rs1) ∧ t = { s with stepMode := !s.stepMode } := by
  cases exec_effect h with
  | toggles rd rs1 hi => exact .inr ⟨⟨rd, rs1, hi⟩, rfl⟩
  | _ => left; simp

end Sys2Proof.Machine
end

