-- ==== Sys2Proof/Laws/Operands.lean ====
section
/-! SUPPORT. The operand forms as integers and as bits (00_scope.md R12, 30_encoding.md R92, 41_alu_register.md R126). -/

namespace Sys2Proof.Machine

/-- Sign extension keeps the signed value. -/
theorem sext_toInt {n : Nat} (v : BitVec n) (h : n ≤ 32) : (sext v).toInt = v.toInt :=
  BitVec.toInt_signExtend_of_le h

/-- Sign extension, one bit at a time. -/
theorem sext_getLsbD {n : Nat} (v : BitVec n) {k : Nat} (hk : k < 32) :
    (sext v).getLsbD k = if k < n then v.getLsbD k else v.getLsbD (n - 1) := by
  unfold sext
  rw [BitVec.getLsbD_signExtend]
  simp [hk, BitVec.msb_eq_getLsbD_last]

/-- Zero extension keeps the unsigned value. -/
theorem zext_toNat {n : Nat} (v : BitVec n) (h : n ≤ 32) : (zext v).toNat = v.toNat := by
  have hv := v.isLt
  have : 2 ^ n ≤ 2 ^ 32 := Nat.pow_le_pow_right (by decide) h
  rw [zext, BitVec.toNat_setWidth, Nat.mod_eq_of_lt (by omega)]

/-- The register shift amount is the register modulo 32. -/
theorem shiftAmount_eq (b : Word) : shiftAmount b = b.toNat % 32 := by
  simp [shiftAmount, bits, BitVec.extractLsb'_toNat]

/-- The U immediate as used, one bit at a time. -/
theorem upperImm_getLsbD (imm : BitVec 20) (i : Nat) :
    (upperImm imm).getLsbD i = if i < 12 then false else imm.getLsbD (i - 12) := by
  change BitVec.getLsbD (w := 20 + 12) (imm ++ 0#12) i = _
  rw [BitVec.getLsbD_append]
  split <;> simp

/-- A comparator's result as a word. -/
theorem boolWord_decide (p : Prop) [Decidable p] : boolWord (decide p) = if p then 1#32 else 0#32 := by
  by_cases h : p <;> simp [boolWord, h]

end Sys2Proof.Machine
end

