-- ==== Sys2Proof/Laws/PerInstr.lean ====
section
/-! SUPPORT. Facts about every instruction as syntax, one lemma per constructor. -/

namespace Sys2Proof.Laws.KeyOfWord

/-- The word of an instruction has the dispatch key of its operation (30_encoding.md R98, R99). -/
def Statement (i : Instr) : Prop := (Fields.ofWord (encode i)).key = some i.op.key

theorem lui (rd : RegIdx) (imm : BitVec 20) : Statement (.lui rd imm) := key_encodeU .lui rfl ..
theorem auipc (rd : RegIdx) (imm : BitVec 20) : Statement (.auipc rd imm) := key_encodeU .auipc rfl ..
theorem jal (rd : RegIdx) (offset : BitVec 21) : Statement (.jal rd offset) := key_encodeUJ .jal rfl ..
theorem jalr (rd rs1 : RegIdx) (imm : BitVec 12) : Statement (.jalr rd rs1 imm) := key_encodeI .jalr rfl ..
theorem beq (rs1 rs2 : RegIdx) (offset : BitVec 13) : Statement (.beq rs1 rs2 offset) := key_encodeSB .beq rfl ..
theorem bne (rs1 rs2 : RegIdx) (offset : BitVec 13) : Statement (.bne rs1 rs2 offset) := key_encodeSB .bne rfl ..
theorem blt (rs1 rs2 : RegIdx) (offset : BitVec 13) : Statement (.blt rs1 rs2 offset) := key_encodeSB .blt rfl ..
theorem bge (rs1 rs2 : RegIdx) (offset : BitVec 13) : Statement (.bge rs1 rs2 offset) := key_encodeSB .bge rfl ..
theorem bltu (rs1 rs2 : RegIdx) (offset : BitVec 13) : Statement (.bltu rs1 rs2 offset) := key_encodeSB .bltu rfl ..
theorem bgeu (rs1 rs2 : RegIdx) (offset : BitVec 13) : Statement (.bgeu rs1 rs2 offset) := key_encodeSB .bgeu rfl ..
theorem lb (rd rs1 : RegIdx) (imm : BitVec 12) : Statement (.lb rd rs1 imm) := key_encodeI .lb rfl ..
theorem lh (rd rs1 : RegIdx) (imm : BitVec 12) : Statement (.lh rd rs1 imm) := key_encodeI .lh rfl ..
theorem lw (rd rs1 : RegIdx) (imm : BitVec 12) : Statement (.lw rd rs1 imm) := key_encodeI .lw rfl ..
theorem lbu (rd rs1 : RegIdx) (imm : BitVec 12) : Statement (.lbu rd rs1 imm) := key_encodeI .lbu rfl ..
theorem lhu (rd rs1 : RegIdx) (imm : BitVec 12) : Statement (.lhu rd rs1 imm) := key_encodeI .lhu rfl ..
theorem sb (rs2 rs1 : RegIdx) (imm : BitVec 12) : Statement (.sb rs2 rs1 imm) := key_encodeS .sb rfl ..
theorem sh (rs2 rs1 : RegIdx) (imm : BitVec 12) : Statement (.sh rs2 rs1 imm) := key_encodeS .sh rfl ..
theorem sw (rs2 rs1 : RegIdx) (imm : BitVec 12) : Statement (.sw rs2 rs1 imm) := key_encodeS .sw rfl ..
theorem addi (rd rs1 : RegIdx) (imm : BitVec 12) : Statement (.addi rd rs1 imm) := key_encodeI .addi rfl ..
theorem slti (rd rs1 : RegIdx) (imm : BitVec 12) : Statement (.slti rd rs1 imm) := key_encodeI .slti rfl ..
theorem sltiu (rd rs1 : RegIdx) (imm : BitVec 12) : Statement (.sltiu rd rs1 imm) := key_encodeI .sltiu rfl ..
theorem xori (rd rs1 : RegIdx) (imm : BitVec 12) : Statement (.xori rd rs1 imm) := key_encodeI .xori rfl ..
theorem ori (rd rs1 : RegIdx) (imm : BitVec 12) : Statement (.ori rd rs1 imm) := key_encodeI .ori rfl ..
theorem andi (rd rs1 : RegIdx) (imm : BitVec 12) : Statement (.andi rd rs1 imm) := key_encodeI .andi rfl ..
theorem slli (rd rs1 : RegIdx) (shamt : BitVec 5) : Statement (.slli rd rs1 shamt) := key_encodeR .slli rfl ..
theorem srli (rd rs1 : RegIdx) (shamt : BitVec 5) : Statement (.srli rd rs1 shamt) := key_encodeR .srli rfl ..
theorem srai (rd rs1 : RegIdx) (shamt : BitVec 5) : Statement (.srai rd rs1 shamt) := key_encodeR .srai rfl ..
theorem add (rd rs1 rs2 : RegIdx) : Statement (.add rd rs1 rs2) := key_encodeR .add rfl ..
theorem sub (rd rs1 rs2 : RegIdx) : Statement (.sub rd rs1 rs2) := key_encodeR .sub rfl ..
theorem sll (rd rs1 rs2 : RegIdx) : Statement (.sll rd rs1 rs2) := key_encodeR .sll rfl ..
theorem slt (rd rs1 rs2 : RegIdx) : Statement (.slt rd rs1 rs2) := key_encodeR .slt rfl ..
theorem sltu (rd rs1 rs2 : RegIdx) : Statement (.sltu rd rs1 rs2) := key_encodeR .sltu rfl ..
theorem xor (rd rs1 rs2 : RegIdx) : Statement (.xor rd rs1 rs2) := key_encodeR .xor rfl ..
theorem srl (rd rs1 rs2 : RegIdx) : Statement (.srl rd rs1 rs2) := key_encodeR .srl rfl ..
theorem sra (rd rs1 rs2 : RegIdx) : Statement (.sra rd rs1 rs2) := key_encodeR .sra rfl ..
theorem or (rd rs1 rs2 : RegIdx) : Statement (.or rd rs1 rs2) := key_encodeR .or rfl ..
theorem and (rd rs1 rs2 : RegIdx) : Statement (.and rd rs1 rs2) := key_encodeR .and rfl ..
theorem fence (rd rs1 : RegIdx) (imm : BitVec 12) : Statement (.fence rd rs1 imm) := key_encodeI .fence rfl ..
theorem ecall (rd rs1 : RegIdx) : Statement (.ecall rd rs1) := key_encodeI_system .ecall rfl ..
theorem ebreak (rd rs1 : RegIdx) : Statement (.ebreak rd rs1) := key_encodeI_system .ebreak rfl ..

end Sys2Proof.Laws.KeyOfWord
end

