-- ==== Sys2Proof/Laws/Step.lean ====
section
/-! SUPPORT. Everything a step can do, once (10_state.md R30, 60_exceptions.md R225). -/

namespace Sys2Proof.Machine

/-! ## Fetch -/

/-- A fetch in range gives the word at `pc` (20_memory.md R57). -/
theorem fetch_of_lt {s : State} (h : wordIndex s.pc < s.cfg.memWords) : s.fetch = some (s.readWord s.pc) := by
  simp [State.fetch, State.readWord, State.inRange, h]

/-- A fetch out of range gives nothing (10_state.md R31). -/
theorem fetch_of_ge {s : State} (h : s.cfg.memWords ≤ wordIndex s.pc) : s.fetch = none := by
  unfold State.fetch; rw [if_neg (by omega)]

/-- What a fetch that answers a word says. -/
theorem fetch_some {s : State} {w : Word} (h : s.fetch = some w) :
    wordIndex s.pc < s.cfg.memWords ∧ s.readWord s.pc = w := by
  unfold State.fetch at h
  split at h
  · next hlt => exact ⟨hlt, by simpa [State.readWord, State.inRange, hlt] using h⟩
  · cases h

/-! ## The step -/

/-- A core that is running and not suspended takes a step of its own. -/
theorem step_free {s : State} (h : FreeRunning s) : step s = s.coreStep := by
  unfold step cycle
  rw [h.1]
  simp [h.2]

/-- A halted core does nothing (60_exceptions.md R225). -/
theorem step_halted {s : State} {r : HaltReason} (h : s.runState = .halted r) : step s = .next s := by
  unfold step cycle; rw [h]

/-- A suspended core takes the host's next command. -/
theorem step_command {s : State} {c : HostCommand} {q : List HostCommand} (h : s.runState = .running)
    (hm : s.stepMode = true) (hq : s.hostQueue = c :: q) : step s = State.command { s with hostQueue := q } c := by
  unfold step cycle; rw [h, hq]; simp [hm]

/-- A suspended core with no command has no step. -/
theorem step_noCommand {s : State} (h : s.runState = .running) (hm : s.stepMode = true) (hq : s.hostQueue = []) :
    step s = .fault .suspendedNoCommand := by
  unfold step cycle; rw [h, hq]; simp [hm]

/-- A core that takes a step takes its own step, after the host's command `step` if it was suspended. -/
theorem step_takesStep {s : State} (h : TakesStep s) :
    ∃ q, step s = State.coreStep { s with hostQueue := q } := by
  obtain ⟨hr, hm | ⟨hm, q, hq⟩⟩ := h
  · exact ⟨s.hostQueue, step_free ⟨hr, hm⟩⟩
  · exact ⟨q, step_command hr hm hq⟩

/-- A fetch out of bounds. -/
theorem coreStep_outOfBounds {s : State} (h : s.fetch = none) : s.coreStep = .next s.fetchOutOfBounds := by
  unfold State.coreStep; rw [h]

/-- A miss. -/
theorem coreStep_miss {s : State} {w : Word} {info : MissInfo} (h : s.fetch = some w)
    (hd : decode w = .instructionNotFound info) : s.coreStep = .next (s.beginStep.miss info) := by
  unfold State.coreStep; simp only [h, hd]

/-- An executed instruction. -/
theorem coreStep_hit {s t : State} {w : Word} {i : Instr} (h : s.fetch = some w) (hd : decode w = .hit i)
    (he : exec i s.beginStep = .next t) : s.coreStep = .next (t.retire i) := by
  unfold State.coreStep; simp only [h, hd, he]

/-- Everything a core's own step can do, where it answers a next state. -/
theorem coreStep_cases {s t : State} (h : s.coreStep = .next t) :
    (s.fetch = none ∧ t = s.fetchOutOfBounds)
    ∨ (∃ w info, s.fetch = some w ∧ decode w = .instructionNotFound info ∧ t = s.beginStep.miss info)
    ∨ (∃ w i u, s.fetch = some w ∧ decode w = .hit i ∧ exec i s.beginStep = .next u ∧ t = u.retire i) := by
  unfold State.coreStep at h
  split at h
  · next hf => exact .inl ⟨hf, by cases h; rfl⟩
  · next w hf =>
    split at h
    · next info hd => exact .inr (.inl ⟨w, info, hf, hd, by cases h; rfl⟩)
    · next i hd =>
      split at h
      · next u he => exact .inr (.inr ⟨w, i, u, hf, hd, he, by cases h; rfl⟩)
      · cases h
      · cases h

/-- Everything a step can do, where it answers a next state (60_exceptions.md R225). -/
theorem step_cases {s t : State} (h : step s = .next t) :
    (∃ r, s.runState = .halted r ∧ t = s)
    ∨ (FreeRunning s ∧ s.coreStep = .next t)
    ∨ (∃ c q, s.runState = .running ∧ s.stepMode = true ∧ s.hostQueue = c :: q
        ∧ State.command { s with hostQueue := q } c = .next t) := by
  obtain ⟨r, hr⟩ | hr : (∃ r, s.runState = .halted r) ∨ s.runState = .running := by
    cases s.runState <;> simp
  · rw [step_halted hr] at h
    cases h
    exact .inl ⟨r, hr, rfl⟩
  · obtain hm | hm : s.stepMode = false ∨ s.stepMode = true := by cases s.stepMode <;> simp
    · rw [step_free ⟨hr, hm⟩] at h
      exact .inr (.inl ⟨⟨hr, hm⟩, h⟩)
    · obtain hq | ⟨c, q, hq⟩ : s.hostQueue = [] ∨ ∃ c q, s.hostQueue = c :: q := by
        cases s.hostQueue <;> simp
      · rw [step_noCommand hr hm hq] at h; cases h
      · rw [step_command hr hm hq] at h
        exact .inr (.inr ⟨c, q, hr, hm, hq, h⟩)

/-- Everything a step can do, where it answers a next state, by the event that makes it: nothing in a halted core, a
step of its own, or a command of the host other than `step`. -/
theorem step_events {s t : State} (h : step s = .next t) :
    (∃ r, s.runState = .halted r ∧ t = s)
    ∨ (TakesStep s ∧ ∃ q, State.coreStep { s with hostQueue := q } = .next t)
    ∨ (∃ c q, TakesCommand s c ∧ c ≠ .step ∧ State.command { s with hostQueue := q } c = .next t) := by
  rcases step_cases h with h | ⟨hs, hc⟩ | ⟨c, q, hr, hm, hq, hc⟩
  · exact .inl h
  · exact .inr (.inl ⟨⟨hs.1, .inl hs.2⟩, s.hostQueue, hc⟩)
  · by_cases hstep : c = .step
    · subst hstep
      exact .inr (.inl ⟨⟨hr, .inr ⟨hm, q, hq⟩⟩, q, hc⟩)
    · exact .inr (.inr ⟨c, q, ⟨hr, hm, q, hq⟩, hstep, hc⟩)

/-! ## The miss policy and the end of an instruction, field by field -/

section fields

variable (s : State) (info : MissInfo) (i : Instr)

theorem State.miss_eq : s.miss info =
    if 0 < s.cfg.missHaltLimit ∧ s.cfg.missHaltLimit ≤ s.missCount + 1 then
      { s with raised := s.raised ++ [.instructionNotFound info], missCount := s.missCount + 1,
               runState := .halted .missLimit }
    else
      { s with raised := s.raised ++ [.instructionNotFound info], missCount := s.missCount + 1,
               pc := s.pc + 4#32 } := rfl

@[simp] theorem State.miss_regs : (s.miss info).regs = s.regs := by rw [State.miss_eq]; split <;> rfl
@[simp] theorem State.miss_mem : (s.miss info).mem = s.mem := by rw [State.miss_eq]; split <;> rfl
@[simp] theorem State.miss_stepMode : (s.miss info).stepMode = s.stepMode := by rw [State.miss_eq]; split <;> rfl
@[simp] theorem State.miss_missCount : (s.miss info).missCount = s.missCount + 1 := by rw [State.miss_eq]; split <;> rfl
@[simp] theorem State.miss_redirect : (s.miss info).redirect = s.redirect := by rw [State.miss_eq]; split <;> rfl
@[simp] theorem State.miss_debugLog : (s.miss info).debugLog = s.debugLog := by rw [State.miss_eq]; split <;> rfl
@[simp] theorem State.miss_cfg : (s.miss info).cfg = s.cfg := by rw [State.miss_eq]; split <;> rfl
@[simp] theorem State.miss_hostQueue : (s.miss info).hostQueue = s.hostQueue := by rw [State.miss_eq]; split <;> rfl
@[simp] theorem State.miss_traceOut : (s.miss info).traceOut = s.traceOut := by rw [State.miss_eq]; split <;> rfl
@[simp] theorem State.miss_dumpOut : (s.miss info).dumpOut = s.dumpOut := by rw [State.miss_eq]; split <;> rfl
@[simp] theorem State.miss_raised : (s.miss info).raised = s.raised ++ [.instructionNotFound info] := by
  rw [State.miss_eq]; split <;> rfl

/-- A miss halts the core exactly at the limit (60_exceptions.md R222). -/
theorem State.miss_runState : (s.miss info).runState =
    if 0 < s.cfg.missHaltLimit ∧ s.cfg.missHaltLimit ≤ s.missCount + 1 then .halted .missLimit else s.runState := by
  rw [State.miss_eq]; split <;> rfl

theorem State.retire_eq : s.retire i =
    if s.runState = .running ∧ s.redirect = false then
      { s with missCount := 0, traceOut := s.traceOut ++ [i], pc := s.pc + 4#32, redirect := false }
    else { s with missCount := 0, traceOut := s.traceOut ++ [i], redirect := false } := by
  unfold State.retire
  simp only
  split <;> rfl

/-- An instruction that neither redirected nor halted: `pc + 4` (10_state.md R32). -/
theorem State.retire_pc_next (h : s.runState = .running) (hr : s.redirect = false) : (s.retire i).pc = s.pc + 4#32 := by
  rw [State.retire_eq, if_pos ⟨h, hr⟩]

/-- An instruction that redirected: its target stays (10_state.md R33). -/
theorem State.retire_pc_redirected (hr : s.redirect = true) : (s.retire i).pc = s.pc := by
  rw [State.retire_eq, if_neg (by simp [hr])]

/-- An instruction that halted the core: `pc` stays (10_state.md R26). -/
theorem State.retire_pc_halted (h : s.runState ≠ .running) : (s.retire i).pc = s.pc := by
  rw [State.retire_eq, if_neg (fun e => h e.1)]

@[simp] theorem State.retire_regs : (s.retire i).regs = s.regs := by rw [State.retire_eq]; split <;> rfl
@[simp] theorem State.retire_mem : (s.retire i).mem = s.mem := by rw [State.retire_eq]; split <;> rfl
@[simp] theorem State.retire_runState : (s.retire i).runState = s.runState := by rw [State.retire_eq]; split <;> rfl
@[simp] theorem State.retire_stepMode : (s.retire i).stepMode = s.stepMode := by rw [State.retire_eq]; split <;> rfl
@[simp] theorem State.retire_missCount : (s.retire i).missCount = 0 := by rw [State.retire_eq]; split <;> rfl
@[simp] theorem State.retire_redirect : (s.retire i).redirect = false := by rw [State.retire_eq]; split <;> rfl
@[simp] theorem State.retire_debugLog : (s.retire i).debugLog = s.debugLog := by rw [State.retire_eq]; split <;> rfl
@[simp] theorem State.retire_cfg : (s.retire i).cfg = s.cfg := by rw [State.retire_eq]; split <;> rfl
@[simp] theorem State.retire_hostQueue : (s.retire i).hostQueue = s.hostQueue := by rw [State.retire_eq]; split <;> rfl
@[simp] theorem State.retire_traceOut : (s.retire i).traceOut = s.traceOut ++ [i] := by rw [State.retire_eq]; split <;> rfl
@[simp] theorem State.retire_raised : (s.retire i).raised = s.raised := by rw [State.retire_eq]; split <;> rfl
@[simp] theorem State.retire_dumpOut : (s.retire i).dumpOut = s.dumpOut := by rw [State.retire_eq]; split <;> rfl

end fields

theorem State.readReg_retire (s : State) (i : Instr) (r : RegIdx) : (s.retire i).readReg r = s.readReg r :=
  State.readReg_congr (by simp) r

theorem State.memRead1_retire (s : State) (i : Instr) (a : Word) : (s.retire i).memRead1 a = s.memRead1 a :=
  State.memRead1_congr (by simp) (by simp) a

/-- A run of one step more. -/
theorem run_next {M : Host.Core} {n : Nat} {s t : M.State} (h : M.step s = .next t) : M.run (n + 1) s = M.run n t := by
  rw [Host.Core.run, h]

/-! ## Power-on -/

/-- What power-on answers (70_reset_and_hazards.md R250, R253). -/
theorem powerOn_cases {c : Config} {s : State} (h : powerOn c = .next s) :
    c.valid = true ∧ c.imageFits = true ∧ s = bootState c := by
  unfold powerOn at h
  split at h
  · cases h
  · split at h
    · cases h
    · next h1 h2 => exact ⟨by simpa using h1, by simpa using h2, by cases h; rfl⟩

end Sys2Proof.Machine
end

