-- ==== Sys2Proof/Tests/Slice0.lean ====
section
/-! SUPPORT. The model's own tests: ill-formed terms, words written out from the spec's encodings, single steps from
95_test_vectors.md, and for every statement with hypotheses a state and operands that meet them. -/

namespace Sys2Proof.Tests

open Sys2Proof.Machine

/-! ## Helpers -/

/-- The configuration of 95_test_vectors.md. -/
def vectorConfig : Config := { Config.atReset with memWords := 1024, regFill := 0xCCCCCCCC#32 }

/-- The state a single-instruction vector starts from: `pc`, some registers, some memory words, the word at `pc`. -/
def bench (c : Config) (pc : Word) (regs : List (RegIdx × Word)) (words : List (Word × Word)) (w : Word) : State :=
  let s : State := { State.reset with cfg := c, regs := filledRegs c.regFill, pc := pc }
  let s := regs.foldl (fun s p => s.writeReg p.1 p.2) s
  let s := words.foldl (fun s p => s.writeWord p.1 p.2) s
  s.withFetchWord 32 w.toNat

/-- The state after one step, where there is one. -/
def after (s : State) : Option State :=
  match step s with
  | .next t => some t
  | .fault _ => none
  | .refused _ => none

/-- A vector's state with one word at `0x100`, `x1 = 0x200`, `x2 = 0x12345678` and `[0x200] = 0x8000FF80`. -/
def plain (c : Config) (w : Word) : State :=
  bench c 0x100#32 [(1#5, 0x200#32), (2#5, 0x12345678#32)] [(0x200#32, 0x8000FF80#32)] w

/-- The vector configuration under `MISALIGNED_SUBWORD = STUCK`. -/
def stuckConfig : Config := { vectorConfig with misalignedSubword := .stuck }

/-- A suspended core with commands to come. -/
def suspendedState (q : List HostCommand) : State :=
  { plain vectorConfig 0x00100073#32 with stepMode := true, hostQueue := q }

/-! ## Ill-formed terms, one for each check -/

theorem test_illFormed_jal : (Instr.jal 1#5 3#21).wellFormed = false := by decide
theorem test_illFormed_beq : (Instr.beq 1#5 2#5 1#13).wellFormed = false := by decide
theorem test_illFormed_bne : (Instr.bne 1#5 2#5 0x1FFF#13).wellFormed = false := by decide
theorem test_illFormed_blt : (Instr.blt 1#5 2#5 7#13).wellFormed = false := by decide
theorem test_illFormed_bge : (Instr.bge 1#5 2#5 5#13).wellFormed = false := by decide
theorem test_illFormed_bltu : (Instr.bltu 1#5 2#5 9#13).wellFormed = false := by decide
theorem test_illFormed_bgeu : (Instr.bgeu 1#5 2#5 11#13).wellFormed = false := by decide

/-! ## Words written out from the encodings of the rules R121 to R212, fields in the order the rule draws them -/

theorem test_decode_lui : decode 0b10101011110011011110_10101_0110111#32 = .hit (.lui 0b10101#5 0b10101011110011011110#20) := by decide
theorem test_decode_auipc : decode 0b10101011110011011110_10101_0010111#32 = .hit (.auipc 0b10101#5 0b10101011110011011110#20) := by decide
theorem test_decode_jal : decode 0b1_1100110101_0_00101101_10101_1101111#32 = .hit (.jal 0b10101#5 0b100101101011001101010#21) := by decide
theorem test_decode_jalr : decode 0b101101001110_00110_000_10101_1100111#32 = .hit (.jalr 0b10101#5 0b00110#5 0b101101001110#12) := by decide
theorem test_decode_beq : decode 0b1_101101_11001_00110_000_0011_0_1100011#32 = .hit (.beq 0b00110#5 0b11001#5 0b1010110100110#13) := by decide
theorem test_decode_bne : decode 0b1_101101_11001_00110_001_0011_0_1100011#32 = .hit (.bne 0b00110#5 0b11001#5 0b1010110100110#13) := by decide
theorem test_decode_blt : decode 0b1_101101_11001_00110_100_0011_0_1100011#32 = .hit (.blt 0b00110#5 0b11001#5 0b1010110100110#13) := by decide
theorem test_decode_bge : decode 0b1_101101_11001_00110_101_0011_0_1100011#32 = .hit (.bge 0b00110#5 0b11001#5 0b1010110100110#13) := by decide
theorem test_decode_bltu : decode 0b1_101101_11001_00110_110_0011_0_1100011#32 = .hit (.bltu 0b00110#5 0b11001#5 0b1010110100110#13) := by decide
theorem test_decode_bgeu : decode 0b1_101101_11001_00110_111_0011_0_1100011#32 = .hit (.bgeu 0b00110#5 0b11001#5 0b1010110100110#13) := by decide
theorem test_decode_lb : decode 0b101101001110_00110_000_10101_0000011#32 = .hit (.lb 0b10101#5 0b00110#5 0b101101001110#12) := by decide
theorem test_decode_lh : decode 0b101101001110_00110_001_10101_0000011#32 = .hit (.lh 0b10101#5 0b00110#5 0b101101001110#12) := by decide
theorem test_decode_lw : decode 0b101101001110_00110_010_10101_0000011#32 = .hit (.lw 0b10101#5 0b00110#5 0b101101001110#12) := by decide
theorem test_decode_lbu : decode 0b101101001110_00110_100_10101_0000011#32 = .hit (.lbu 0b10101#5 0b00110#5 0b101101001110#12) := by decide
theorem test_decode_lhu : decode 0b101101001110_00110_101_10101_0000011#32 = .hit (.lhu 0b10101#5 0b00110#5 0b101101001110#12) := by decide
theorem test_decode_sb : decode 0b1011010_11001_00110_000_01110_0100011#32 = .hit (.sb 0b11001#5 0b00110#5 0b101101001110#12) := by decide
theorem test_decode_sh : decode 0b1011010_11001_00110_001_01110_0100011#32 = .hit (.sh 0b11001#5 0b00110#5 0b101101001110#12) := by decide
theorem test_decode_sw : decode 0b1011010_11001_00110_010_01110_0100011#32 = .hit (.sw 0b11001#5 0b00110#5 0b101101001110#12) := by decide
theorem test_decode_addi : decode 0b101101001110_00110_000_10101_0010011#32 = .hit (.addi 0b10101#5 0b00110#5 0b101101001110#12) := by decide
theorem test_decode_slti : decode 0b101101001110_00110_010_10101_0010011#32 = .hit (.slti 0b10101#5 0b00110#5 0b101101001110#12) := by decide
theorem test_decode_sltiu : decode 0b101101001110_00110_011_10101_0010011#32 = .hit (.sltiu 0b10101#5 0b00110#5 0b101101001110#12) := by decide
theorem test_decode_xori : decode 0b101101001110_00110_100_10101_0010011#32 = .hit (.xori 0b10101#5 0b00110#5 0b101101001110#12) := by decide
theorem test_decode_ori : decode 0b101101001110_00110_110_10101_0010011#32 = .hit (.ori 0b10101#5 0b00110#5 0b101101001110#12) := by decide
theorem test_decode_andi : decode 0b101101001110_00110_111_10101_0010011#32 = .hit (.andi 0b10101#5 0b00110#5 0b101101001110#12) := by decide
theorem test_decode_slli : decode 0b0000000_10011_00110_001_10101_0010011#32 = .hit (.slli 0b10101#5 0b00110#5 0b10011#5) := by decide
theorem test_decode_srli : decode 0b0000000_10011_00110_101_10101_0010011#32 = .hit (.srli 0b10101#5 0b00110#5 0b10011#5) := by decide
theorem test_decode_srai : decode 0b0100000_10011_00110_101_10101_0010011#32 = .hit (.srai 0b10101#5 0b00110#5 0b10011#5) := by decide
theorem test_decode_add : decode 0b0000000_11001_00110_000_10101_0110011#32 = .hit (.add 0b10101#5 0b00110#5 0b11001#5) := by decide
theorem test_decode_sub : decode 0b0100000_11001_00110_000_10101_0110011#32 = .hit (.sub 0b10101#5 0b00110#5 0b11001#5) := by decide
theorem test_decode_sll : decode 0b0000000_11001_00110_001_10101_0110011#32 = .hit (.sll 0b10101#5 0b00110#5 0b11001#5) := by decide
theorem test_decode_slt : decode 0b0000000_11001_00110_010_10101_0110011#32 = .hit (.slt 0b10101#5 0b00110#5 0b11001#5) := by decide
theorem test_decode_sltu : decode 0b0000000_11001_00110_011_10101_0110011#32 = .hit (.sltu 0b10101#5 0b00110#5 0b11001#5) := by decide
theorem test_decode_xor : decode 0b0000000_11001_00110_100_10101_0110011#32 = .hit (.xor 0b10101#5 0b00110#5 0b11001#5) := by decide
theorem test_decode_srl : decode 0b0000000_11001_00110_101_10101_0110011#32 = .hit (.srl 0b10101#5 0b00110#5 0b11001#5) := by decide
theorem test_decode_sra : decode 0b0100000_11001_00110_101_10101_0110011#32 = .hit (.sra 0b10101#5 0b00110#5 0b11001#5) := by decide
theorem test_decode_or : decode 0b0000000_11001_00110_110_10101_0110011#32 = .hit (.or 0b10101#5 0b00110#5 0b11001#5) := by decide
theorem test_decode_and : decode 0b0000000_11001_00110_111_10101_0110011#32 = .hit (.and 0b10101#5 0b00110#5 0b11001#5) := by decide
theorem test_decode_fence : decode 0b101101001110_00110_000_10101_0001111#32 = .hit (.fence 0b10101#5 0b00110#5 0b101101001110#12) := by decide
theorem test_decode_ecall : decode 0b000000000000_00110_000_10101_1110011#32 = .hit (.ecall 0b10101#5 0b00110#5) := by decide
theorem test_decode_ebreak : decode 0b000000000001_00110_000_10101_1110011#32 = .hit (.ebreak 0b10101#5 0b00110#5) := by decide

/-- A word that misses, with the raw fields it records. -/
def missesRaw (w : Word) : Bool :=
  decide (decode w = .instructionNotFound ⟨bits w 0 7, bits w 12 3, bits w 25 7, bits w 20 12⟩)

/-- The words of V131 to V138 (95_test_vectors.md) miss. -/
theorem test_decode_misses :
    [0x00000000#32, 0xFFFFFFFF#32, 0x02208133#32, 0x0000000B#32, 0x00003023#32, 0x0000E003#32, 0x00002063#32,
      0x00001067#32].all missesRaw = true := by decide

/-- The words of V139 to V146, V53 and V54 (95_test_vectors.md) miss. -/
theorem test_decode_misses_system :
    [0x0000100F#32, 0x30200073#32, 0x34011073#32, 0x10500073#32, 0x00200073#32, 0x00001073#32, 0x4000C1B3#32,
      0x00000001#32, 0x02009193#32, 0x4220D193#32].all missesRaw = true := by decide

/-- The field rows V148 to V153 of 95_test_vectors.md, the immediates as used. -/
theorem test_decode_immediates :
    sext (Fields.ofWord 0xFE209CE3#32).immB = 0xFFFFFFF8#32 ∧ sext (Fields.ofWord 0x80005063#32).immB = 0xFFFFF000#32 ∧
      sext (Fields.ofWord 0x7E104FE3#32).immB = 0xFFE#32 ∧ sext (Fields.ofWord 0x001000EF#32).immJ = 0x800#32 ∧
      sext (Fields.ofWord 0x800000EF#32).immJ = 0xFFF00000#32 ∧
      sext (Fields.ofWord 0xFE20AE23#32).immS = 0xFFFFFFFC#32 := by decide

/-- The table's numbering: bits past `nbits` are zero, and a word that misses gives nothing. -/
theorem test_decodeTableWord :
    decodeTableWord 32 0x002081B3 = some (.add 3#5 1#5 2#5) ∧ decodeTableWord 32 0x7F = none ∧
      decodeTableWord 24 0xFF00000F = some (.fence 0#5 0#5 0#12) := by decide

/-- The encoder on words of 95_test_vectors.md, one of each format. -/
theorem test_encode :
    encode (.add 3#5 1#5 2#5) = 0x002081B3#32 ∧ encode (.srai 3#5 1#5 4#5) = 0x4040D193#32 ∧
      encode (.jalr 1#5 5#5 3#12) = 0x003280E7#32 ∧ encode (.sw 2#5 1#5 0xFFC#12) = 0xFE20AE23#32 ∧
      encode (.bne 1#5 2#5 0x1FF8#13) = 0xFE209CE3#32 ∧ encode (.lui 3#5 0xFFFFF#20) = 0xFFFFF1B7#32 ∧
      encode (.jal 0#5 0x1FFF00#21) = 0xF01FF06F#32 ∧ encode (.ebreak 0#5 0#5) = 0x00100073#32 := by decide

/-! ## Single steps -/

/-- 95_test_vectors.md V3. -/
theorem test_step_add_V3 :
    (after (bench vectorConfig 0x100#32 [(1#5, 0xFFFFFFFF#32), (2#5, 0x1#32)] [] 0x002081B3#32)).map (fun t => (t.pc, t.readReg 3#5)) = some (0x104#32, 0x0#32) := by decide

/-- 95_test_vectors.md V4. -/
theorem test_step_add_V4 :
    (after (bench vectorConfig 0x100#32 [(1#5, 0x1#32), (2#5, 0x2#32)] [] 0x00208033#32)).map (fun t => (t.pc, t.readReg 0#5)) = some (0x104#32, 0#32) := by decide

/-- 95_test_vectors.md V6. -/
theorem test_step_sub_V6 :
    (after (bench vectorConfig 0x100#32 [(1#5, 0x3#32), (2#5, 0x5#32)] [] 0x402081B3#32)).map (fun t => (t.pc, t.readReg 3#5)) = some (0x104#32, 0xFFFFFFFE#32) := by decide

/-- 95_test_vectors.md V9. -/
theorem test_step_and_V9 :
    (after (bench vectorConfig 0x100#32 [(1#5, 0xF0F0F0F0#32), (2#5, 0xFF00FF00#32)] [] 0x0020F1B3#32)).map (fun t => (t.pc, t.readReg 3#5)) = some (0x104#32, 0xF000F000#32) := by decide

/-- 95_test_vectors.md V10. -/
theorem test_step_or_V10 :
    (after (bench vectorConfig 0x100#32 [(1#5, 0xF0F0F0F0#32), (2#5, 0xFF00FF00#32)] [] 0x0020E1B3#32)).map (fun t => (t.pc, t.readReg 3#5)) = some (0x104#32, 0xFFF0FFF0#32) := by decide

/-- 95_test_vectors.md V11. -/
theorem test_step_xor_V11 :
    (after (bench vectorConfig 0x100#32 [(1#5, 0xF0F0F0F0#32), (2#5, 0xFF00FF00#32)] [] 0x0020C1B3#32)).map (fun t => (t.pc, t.readReg 3#5)) = some (0x104#32, 0xFF00FF0#32) := by decide

/-- 95_test_vectors.md V13. -/
theorem test_step_sll_V13 :
    (after (bench vectorConfig 0x100#32 [(1#5, 0x1#32), (2#5, 0x21#32)] [] 0x002091B3#32)).map (fun t => (t.pc, t.readReg 3#5)) = some (0x104#32, 0x2#32) := by decide

/-- 95_test_vectors.md V14. -/
theorem test_step_sll_V14 :
    (after (bench vectorConfig 0x100#32 [(1#5, 0x1#32), (2#5, 0xFFFFFFE0#32)] [] 0x002091B3#32)).map (fun t => (t.pc, t.readReg 3#5)) = some (0x104#32, 0x1#32) := by decide

/-- 95_test_vectors.md V15. -/
theorem test_step_srl_V15 :
    (after (bench vectorConfig 0x100#32 [(1#5, 0x80000000#32), (2#5, 0x1F#32)] [] 0x0020D1B3#32)).map (fun t => (t.pc, t.readReg 3#5)) = some (0x104#32, 0x1#32) := by decide

/-- 95_test_vectors.md V16. -/
theorem test_step_srl_V16 :
    (after (bench vectorConfig 0x100#32 [(1#5, 0x80000000#32), (2#5, 0x20#32)] [] 0x0020D1B3#32)).map (fun t => (t.pc, t.readReg 3#5)) = some (0x104#32, 0x80000000#32) := by decide

/-- 95_test_vectors.md V17. -/
theorem test_step_sra_V17 :
    (after (bench vectorConfig 0x100#32 [(1#5, 0x80000000#32), (2#5, 0x1F#32)] [] 0x4020D1B3#32)).map (fun t => (t.pc, t.readReg 3#5)) = some (0x104#32, 0xFFFFFFFF#32) := by decide

/-- 95_test_vectors.md V18. -/
theorem test_step_sra_V18 :
    (after (bench vectorConfig 0x100#32 [(1#5, 0x80000000#32), (2#5, 0x4#32)] [] 0x4020D1B3#32)).map (fun t => (t.pc, t.readReg 3#5)) = some (0x104#32, 0xF8000000#32) := by decide

/-- 95_test_vectors.md V20. -/
theorem test_step_slt_V20 :
    (after (bench vectorConfig 0x100#32 [(1#5, 0xFFFFFFFF#32), (2#5, 0x1#32)] [] 0x0020A1B3#32)).map (fun t => (t.pc, t.readReg 3#5)) = some (0x104#32, 0x1#32) := by decide

/-- 95_test_vectors.md V23. -/
theorem test_step_slt_V23 :
    (after (bench vectorConfig 0x100#32 [(1#5, 0x80000000#32), (2#5, 0x7FFFFFFF#32)] [] 0x0020A1B3#32)).map (fun t => (t.pc, t.readReg 3#5)) = some (0x104#32, 0x1#32) := by decide

/-- 95_test_vectors.md V24. -/
theorem test_step_sltu_V24 :
    (after (bench vectorConfig 0x100#32 [(1#5, 0xFFFFFFFF#32), (2#5, 0x1#32)] [] 0x0020B1B3#32)).map (fun t => (t.pc, t.readReg 3#5)) = some (0x104#32, 0x0#32) := by decide

/-- 95_test_vectors.md V26. -/
theorem test_step_sltu_V26 :
    (after (bench vectorConfig 0x100#32 [(2#5, 0x5#32)] [] 0x002031B3#32)).map (fun t => (t.pc, t.readReg 3#5)) = some (0x104#32, 0x1#32) := by decide

/-- 95_test_vectors.md V27. -/
theorem test_step_addi_V27 :
    (after (bench vectorConfig 0x100#32 [(1#5, 0x5#32)] [] 0xFFF08193#32)).map (fun t => (t.pc, t.readReg 3#5)) = some (0x104#32, 0x4#32) := by decide

/-- 95_test_vectors.md V31. -/
theorem test_step_addi_V31 :
    (after (bench vectorConfig 0x100#32 [] [] 0xFE000093#32)).map (fun t => (t.pc, t.readReg 1#5)) = some (0x104#32, 0xFFFFFFE0#32) := by decide

/-- 95_test_vectors.md V32. -/
theorem test_step_andi_V32 :
    (after (bench vectorConfig 0x100#32 [(1#5, 0x12345678#32)] [] 0xF000F193#32)).map (fun t => (t.pc, t.readReg 3#5)) = some (0x104#32, 0x12345600#32) := by decide

/-- 95_test_vectors.md V34. -/
theorem test_step_ori_V34 :
    (after (bench vectorConfig 0x100#32 [(1#5, 0x0#32)] [] 0xFFF0E193#32)).map (fun t => (t.pc, t.readReg 3#5)) = some (0x104#32, 0xFFFFFFFF#32) := by decide

/-- 95_test_vectors.md V36. -/
theorem test_step_xori_V36 :
    (after (bench vectorConfig 0x100#32 [(1#5, 0xF0F0F0F#32)] [] 0xFFF0C193#32)).map (fun t => (t.pc, t.readReg 3#5)) = some (0x104#32, 0xF0F0F0F0#32) := by decide

/-- 95_test_vectors.md V37. -/
theorem test_step_slti_V37 :
    (after (bench vectorConfig 0x100#32 [(1#5, 0x80000000#32)] [] 0xFFF0A193#32)).map (fun t => (t.pc, t.readReg 3#5)) = some (0x104#32, 0x1#32) := by decide

/-- 95_test_vectors.md V39. -/
theorem test_step_slti_V39 :
    (after (bench vectorConfig 0x100#32 [(1#5, 0x0#32)] [] 0x8000A193#32)).map (fun t => (t.pc, t.readReg 3#5)) = some (0x104#32, 0x0#32) := by decide

/-- 95_test_vectors.md V41. -/
theorem test_step_sltiu_V41 :
    (after (bench vectorConfig 0x100#32 [(1#5, 0x1000#32)] [] 0xFFF0B193#32)).map (fun t => (t.pc, t.readReg 3#5)) = some (0x104#32, 0x0#32) := by decide

/-- 95_test_vectors.md V42. -/
theorem test_step_sltiu_V42 :
    (after (bench ({ vectorConfig with sltiuImmExt := .sign }) 0x100#32 [(1#5, 0x1000#32)] [] 0xFFF0B193#32)).map (fun t => (t.pc, t.readReg 3#5)) = some (0x104#32, 0x1#32) := by decide

/-- 95_test_vectors.md V46. -/
theorem test_step_slli_V46 :
    (after (bench vectorConfig 0x100#32 [(1#5, 0x1#32)] [] 0x01F09193#32)).map (fun t => (t.pc, t.readReg 3#5)) = some (0x104#32, 0x80000000#32) := by decide

/-- 95_test_vectors.md V49. -/
theorem test_step_srli_V49 :
    (after (bench vectorConfig 0x100#32 [(1#5, 0xFFFFFFFF#32)] [] 0x0040D193#32)).map (fun t => (t.pc, t.readReg 3#5)) = some (0x104#32, 0xFFFFFFF#32) := by decide

/-- 95_test_vectors.md V51. -/
theorem test_step_srai_V51 :
    (after (bench vectorConfig 0x100#32 [(1#5, 0x80000000#32)] [] 0x4040D193#32)).map (fun t => (t.pc, t.readReg 3#5)) = some (0x104#32, 0xF8000000#32) := by decide

/-- 95_test_vectors.md V52. -/
theorem test_step_srai_V52 :
    (after (bench vectorConfig 0x100#32 [(1#5, 0x7FFFFFFF#32)] [] 0x41E0D193#32)).map (fun t => (t.pc, t.readReg 3#5)) = some (0x104#32, 0x1#32) := by decide

/-- 95_test_vectors.md V56. -/
theorem test_step_lb_V56 :
    (after (bench vectorConfig 0x100#32 [(1#5, 0x200#32)] [(0x200#32, 0x8000FF80#32)] 0x00108183#32)).map (fun t => (t.pc, t.readReg 3#5)) = some (0x104#32, 0xFFFFFFFF#32) := by decide

/-- 95_test_vectors.md V58. -/
theorem test_step_lb_V58 :
    (after (bench vectorConfig 0x100#32 [(1#5, 0x200#32)] [(0x200#32, 0x8000FF80#32)] 0x00308183#32)).map (fun t => (t.pc, t.readReg 3#5)) = some (0x104#32, 0xFFFFFF80#32) := by decide

/-- 95_test_vectors.md V63. -/
theorem test_step_lh_V63 :
    (after (bench vectorConfig 0x100#32 [(1#5, 0x200#32)] [(0x200#32, 0x8000FF80#32)] 0x00109183#32)).map (fun t => (t.pc, t.readReg 3#5)) = some (0x104#32, 0xFF#32) := by decide

/-- 95_test_vectors.md V70. -/
theorem test_step_lh_V70 :
    step (bench ({ vectorConfig with misalignedSubword := .stuck }) 0x100#32 [(1#5, 0x200#32)] [(0x200#32, 0x8000FF80#32)] 0x00309183#32) = .fault .halfwordStuck := rfl

/-- 95_test_vectors.md V66. -/
theorem test_step_lhu_V66 :
    (after (bench vectorConfig 0x100#32 [(1#5, 0x200#32)] [(0x200#32, 0x8000FF80#32)] 0x0020D183#32)).map (fun t => (t.pc, t.readReg 3#5)) = some (0x104#32, 0x8000#32) := by decide

/-- 95_test_vectors.md V67. -/
theorem test_step_lhu_V67 :
    (after (bench vectorConfig 0x100#32 [(1#5, 0x200#32)] [(0x200#32, 0x8000FF80#32)] 0x0030D183#32)).map (fun t => (t.pc, t.readReg 3#5)) = some (0x104#32, 0x80#32) := by decide

/-- 95_test_vectors.md V69. -/
theorem test_step_lw_V69 :
    (after (bench vectorConfig 0x100#32 [(1#5, 0x200#32)] [(0x200#32, 0x8000FF80#32)] 0x0020A183#32)).map (fun t => (t.pc, t.readReg 3#5)) = some (0x104#32, 0x8000FF80#32) := by decide

/-- 95_test_vectors.md V72. -/
theorem test_step_lw_V72 :
    (after (bench vectorConfig 0x100#32 [(1#5, 0x10000#32)] [] 0x0000A183#32)).map (fun t => (t.pc, t.readReg 3#5)) = some (0x104#32, 0x0#32) := by decide

/-- 95_test_vectors.md V74. -/
theorem test_step_lbu_V74 :
    (after (bench vectorConfig 0x100#32 [(1#5, 0xFFFFFFFF#32)] [(0x0#32, 0xAB#32)] 0x0010C183#32)).map (fun t => (t.pc, t.readReg 3#5)) = some (0x104#32, 0xAB#32) := by decide

/-- 95_test_vectors.md V59. -/
theorem test_step_lbu_V59 :
    (after (bench vectorConfig 0x100#32 [(1#5, 0x200#32)] [(0x200#32, 0x8000FF80#32)] 0x0000C183#32)).map (fun t => (t.pc, t.readReg 3#5)) = some (0x104#32, 0x80#32) := by decide

/-- 95_test_vectors.md V76. -/
theorem test_step_sb_V76 :
    (after (bench vectorConfig 0x100#32 [(1#5, 0x200#32), (2#5, 0x12345678#32)] [(0x200#32, 0xFFFFFFFF#32)] 0x002080A3#32)).map (fun t => (t.pc, t.readWord 0x200#32)) = some (0x104#32, 0xFFFF78FF#32) := by decide

/-- 95_test_vectors.md V80. -/
theorem test_step_sh_V80 :
    (after (bench vectorConfig 0x100#32 [(1#5, 0x200#32), (2#5, 0x12345678#32)] [(0x200#32, 0xFFFFFFFF#32)] 0x002090A3#32)).map (fun t => (t.pc, t.readWord 0x200#32)) = some (0x104#32, 0xFF5678FF#32) := by decide

/-- 95_test_vectors.md V81. -/
theorem test_step_sh_V81 :
    (after (bench vectorConfig 0x100#32 [(1#5, 0x200#32), (2#5, 0x12345678#32)] [(0x200#32, 0xFFFFFFFF#32)] 0x002091A3#32)).map (fun t => (t.pc, t.readWord 0x200#32)) = some (0x104#32, 0x78FFFFFF#32) := by decide

/-- 95_test_vectors.md V83. -/
theorem test_step_sw_V83 :
    (after (bench vectorConfig 0x100#32 [(1#5, 0x200#32), (2#5, 0x12345678#32)] [(0x200#32, 0xFFFFFFFF#32)] 0x0020A0A3#32)).map (fun t => (t.pc, t.readWord 0x200#32)) = some (0x104#32, 0x12345678#32) := by decide

/-- 95_test_vectors.md V86. -/
theorem test_step_sw_V86 :
    (after (bench vectorConfig 0x100#32 [(1#5, 0xFFFFFFFF#32), (2#5, 0x12345678#32)] [] 0x0020A0A3#32)).map (fun t => (t.pc, t.readWord 0x0#32)) = some (0x104#32, 0x12345678#32) := by decide

/-- 95_test_vectors.md V88. -/
theorem test_step_beq_V88 :
    (after (bench vectorConfig 0x100#32 [(1#5, 0x5#32), (2#5, 0x5#32)] [] 0x00208463#32)).map (fun t => t.pc) = some (0x108#32) := by decide

/-- 95_test_vectors.md V91. -/
theorem test_step_beq_V91 :
    (after (bench vectorConfig 0x100#32 [] [] 0x00000063#32)).map (fun t => t.pc) = some (0x100#32) := by decide

/-- 95_test_vectors.md V92. -/
theorem test_step_bne_V92 :
    (after (bench vectorConfig 0x100#32 [(1#5, 0x1#32), (2#5, 0x0#32)] [] 0xFE209CE3#32)).map (fun t => t.pc) = some (0xF8#32) := by decide

/-- 95_test_vectors.md V93. -/
theorem test_step_bne_V93 :
    (after (bench vectorConfig 0x100#32 [(1#5, 0x1#32), (2#5, 0x1#32)] [] 0xFE209CE3#32)).map (fun t => t.pc) = some (0x104#32) := by decide

/-- 95_test_vectors.md V94. -/
theorem test_step_blt_V94 :
    (after (bench vectorConfig 0x100#32 [(1#5, 0xFFFFFFFF#32), (2#5, 0x1#32)] [] 0x0020C463#32)).map (fun t => t.pc) = some (0x108#32) := by decide

/-- 95_test_vectors.md V103. -/
theorem test_step_blt_V103 :
    (after (bench vectorConfig 0x100#32 [(1#5, 0x1#32)] [] 0x7E104FE3#32)).map (fun t => t.pc) = some (0x10FE#32) := by decide

/-- 95_test_vectors.md V96. -/
theorem test_step_bge_V96 :
    (after (bench vectorConfig 0x100#32 [(1#5, 0x7#32), (2#5, 0x7#32)] [] 0x0020D463#32)).map (fun t => t.pc) = some (0x108#32) := by decide

/-- 95_test_vectors.md V97. -/
theorem test_step_bge_V97 :
    (after (bench vectorConfig 0x100#32 [(1#5, 0x80000000#32), (2#5, 0x0#32)] [] 0x0020D463#32)).map (fun t => t.pc) = some (0x104#32) := by decide

/-- 95_test_vectors.md V98. -/
theorem test_step_bltu_V98 :
    (after (bench vectorConfig 0x100#32 [(1#5, 0x1#32), (2#5, 0xFFFFFFFF#32)] [] 0x0020E463#32)).map (fun t => t.pc) = some (0x108#32) := by decide

/-- 95_test_vectors.md V99. -/
theorem test_step_bltu_V99 :
    (after (bench vectorConfig 0x100#32 [(1#5, 0xFFFFFFFF#32), (2#5, 0x1#32)] [] 0x0020E463#32)).map (fun t => t.pc) = some (0x104#32) := by decide

/-- 95_test_vectors.md V100. -/
theorem test_step_bgeu_V100 :
    (after (bench vectorConfig 0x100#32 [(1#5, 0xFFFFFFFF#32), (2#5, 0x1#32)] [] 0x0020F463#32)).map (fun t => t.pc) = some (0x108#32) := by decide

/-- 95_test_vectors.md V101. -/
theorem test_step_bgeu_V101 :
    (after (bench vectorConfig 0x100#32 [] [] 0x00007463#32)).map (fun t => t.pc) = some (0x108#32) := by decide

/-- 95_test_vectors.md V104. -/
theorem test_step_jal_V104 :
    (after (bench vectorConfig 0x100#32 [] [] 0x001000EF#32)).map (fun t => (t.pc, t.readReg 1#5)) = some (0x900#32, 0x104#32) := by decide

/-- 95_test_vectors.md V107. -/
theorem test_step_jal_V107 :
    (after (bench vectorConfig 0x0#32 [] [] 0xFFDFF06F#32)).map (fun t => t.pc) = some (0xFFFFFFFC#32) := by decide

/-- 95_test_vectors.md V110. -/
theorem test_step_jalr_V110 :
    (after (bench ({ vectorConfig with jalrClearsBit0 := false }) 0x100#32 [(5#5, 0x200#32)] [] 0x003280E7#32)).map (fun t => (t.pc, t.readReg 1#5)) = some (0x203#32, 0x104#32) := by decide

/-- 95_test_vectors.md V111. -/
theorem test_step_jalr_V111 :
    (after (bench vectorConfig 0x100#32 [(1#5, 0x200#32)] [] 0xFFC080E7#32)).map (fun t => (t.pc, t.readReg 1#5)) = some (0x1FC#32, 0x104#32) := by decide

/-- 95_test_vectors.md V115. -/
theorem test_step_lui_V115 :
    (after (bench vectorConfig 0x100#32 [] [] 0xFFFFF1B7#32)).map (fun t => (t.pc, t.readReg 3#5)) = some (0x104#32, 0xFFFFF000#32) := by decide

/-- 95_test_vectors.md V120. -/
theorem test_step_auipc_V120 :
    (after (bench vectorConfig 0x100#32 [] [] 0xFFFFF197#32)).map (fun t => (t.pc, t.readReg 3#5)) = some (0x104#32, 0xFFFFF100#32) := by decide

/-- 95_test_vectors.md V124. -/
theorem test_step_fence_V124 :
    (after (bench vectorConfig 0x100#32 [(1#5, 0x55#32)] [] 0x0FF0818F#32)).map (fun t => (t.pc, t.readReg 3#5)) = some (0x104#32, 0xCCCCCCCC#32) := by decide

/-- 95_test_vectors.md V126. -/
theorem test_step_ecall_V126 :
    (after (bench vectorConfig 0x100#32 [] [] 0x00000073#32)).map (fun t => (t.pc, t.runState)) = some (0x100#32, .halted .ecall) := by decide

/-- 95_test_vectors.md V127. -/
theorem test_step_ecall_V127 :
    (after (bench ({ vectorConfig with ecallAction := .nop }) 0x100#32 [] [] 0x00000073#32)).map (fun t => (t.pc, t.runState)) = some (0x104#32, .running) := by decide

/-- 95_test_vectors.md V129. -/
theorem test_step_ebreak_V129 :
    (after (bench vectorConfig 0x100#32 [] [] 0x00100073#32)).map (fun t => (t.pc, t.stepMode)) = some (0x104#32, true) := by decide

/-- 95_test_vectors.md V130. -/
theorem test_step_ebreak_V130 :
    (after ({ bench vectorConfig 0x100#32 [] [] 0x00100073#32 with stepMode := true, hostQueue := [.step] })).map (fun t => (t.pc, t.stepMode)) = some (0x104#32, false) := by decide

/-- V53: a shift-immediate with another funct7 is skipped, with a condition and no trace. -/
theorem test_step_miss :
    (after (plain vectorConfig 0x02009193#32)).map (fun t => (t.pc, t.missCount, t.raised, t.traceOut)) =
      some (0x104#32, 1, [.instructionNotFound ⟨0x13#7, 1#3, 1#7, 0x20#12⟩], []) := by decide

/-- V147: under `MISS_HALT_LIMIT = 1` a miss halts, `pc` kept. -/
theorem test_step_missLimit :
    (after (plain { vectorConfig with missHaltLimit := 1 } 0#32)).map (fun t => (t.pc, t.runState)) =
      some (0x100#32, .halted .missLimit) := by decide

/-- V158: an out-of-bounds fetch halts, `pc` kept. -/
theorem test_step_outOfBounds :
    (after (bench { vectorConfig with memWords := 4 } 0x10#32 [] [] 0#32)).map (fun t => (t.pc, t.runState)) =
      some (0x10#32, .halted .outOfBoundsFetch) := by decide

/-- V160: an unaligned `pc` fetches the word that contains it and is used unaligned. -/
theorem test_step_unalignedPc :
    (after (bench { vectorConfig with memWords := 128 } 0x102#32 [] [] 0x00000197#32)).map
      (fun t => (t.pc, t.readReg 3#5)) = some (0x106#32, 0x102#32) := by decide

/-- The first step after reset runs the word laid where it fetches. -/
theorem test_withFetchWord :
    (after (State.reset.withFetchWord 32 0x00500293)).map (fun t => (t.pc, t.readReg 5#5)) = some (4#32, 5#32) := by
  decide

/-- V163 to V165: the capacity check counts the words below the start address; refused configurations. -/
theorem test_powerOn_refused :
    powerOn { vectorConfig with memWords := 4, startAddr := 8#32, image := [1#32, 2#32, 3#32] } = .refused .imageTooLarge ∧
      powerOn { vectorConfig with memWords := 0 } = .refused .configurationOutOfRange ∧
      powerOn { vectorConfig with startAddr := 2#32 } = .refused .configurationOutOfRange := ⟨rfl, rfl, rfl⟩

/-- V164: a two-word image at byte address 8. -/
theorem test_powerOn_image :
    (bootState { vectorConfig with memWords := 4, startAddr := 8#32, image := [1#32, 2#32] }).dumpWords 0#32 4 =
      [0#32, 0#32, 1#32, 2#32] := by decide

/-- `State.reset` is the power-on state of its own configuration. -/
theorem test_reset_isPowerOn : powerOn Config.atReset = .next State.reset := rfl

/-- The four conditions of 60_exceptions.md R220 and their codes. -/
theorem test_conditionCodes :
    (Condition.instructionNotFound ⟨0#7, 0#3, 0#7, 0#12⟩).code = 1 ∧ (Condition.outOfBoundsFetch 0#32).code = 2 ∧
      Refusal.imageTooLarge.conditionName.map ConditionName.code = some 3 ∧
      (Condition.malformedCommand "foo").code = 4 ∧ Refusal.configurationOutOfRange.conditionName = none := by decide

/-- Command texts of 60_exceptions.md R232 and R237. -/
theorem test_parse :
    HostCommand.parse "step".toList = .step ∧ HostCommand.parse "exit".toList = .exit ∧
      HostCommand.parse "x/2 0x1F".toList = .dump 2 0x1F#32 ∧ HostCommand.parse "x/2 zz".toList = .malformed "x/2 zz" ∧
      HostCommand.parse "foo".toList = .malformed "foo" := by decide

/-- Program P6 of 95_test_vectors.md, item 2: a dump gives words and changes nothing else. -/
theorem test_command_dump :
    (after (suspendedState [.dump 2 0x100#32])).map (fun t => (t.dumpOut, t.pc, t.stepMode)) =
      some ([[0x00100073#32, 0#32]], 0x100#32, true) := by decide

/-- Program P6 of 95_test_vectors.md, item 5: an unknown command is raised. -/
theorem test_command_malformed :
    (after (suspendedState [.malformed "foo"])).map (fun t => (t.raised, t.pc, t.stepMode)) =
      some ([.malformedCommand "foo"], 0x100#32, true) := by decide

/-! ## Witnesses: the hypotheses of the statements are met -/

/-- A core runs freely, and its word decodes to an instruction. -/
def runsFreely (s : State) (w : Word) (i : Instr) : Prop := FreeRunning s ∧ s.fetch = some w ∧ decode w = .hit i

theorem test_witness_RegisterZeroIsHardwired : 1#5 ≠ 0#5 ∧ 31#5 ≠ 0#5 := by decide

theorem test_witness_InstructionWritesAtMostItsRegister :
    ∃ t, exec (.add 3#5 1#5 2#5) (plain vectorConfig 0#32) = .next t ∧ (Instr.add 3#5 1#5 2#5).writes ≠ some 31#5 :=
  ⟨_, rfl, by decide⟩

theorem test_witness_InstructionReadsOnlyItsRegisters :
    ∀ r ∈ (Instr.add 3#5 1#5 2#5).reads,
      ({ plain vectorConfig 0#32 with regs := (plain vectorConfig 0#32).regs.set 31 7#32 } : State).readReg r =
        (plain vectorConfig 0#32).readReg r := by decide

theorem test_witness_OpInstructionsReadComputeWriteAdvance :
    runsFreely (plain vectorConfig 0x002081B3#32) 0x002081B3#32 (.add 3#5 1#5 2#5) ∧
      runsFreely (plain vectorConfig 0x00208033#32) 0x00208033#32 (.add 0#5 1#5 2#5) ∧
      runsFreely (plain vectorConfig 0x0020B1B3#32) 0x0020B1B3#32 (.sltu 3#5 1#5 2#5) :=
  ⟨⟨⟨rfl, rfl⟩, by decide, by decide⟩, ⟨⟨rfl, rfl⟩, by decide, by decide⟩, ⟨⟨rfl, rfl⟩, by decide, by decide⟩⟩

theorem test_witness_ImmediateComparesFollowConfiguration :
    (plain vectorConfig 0#32).cfg.sltiuImmExt = .zero ∧
      (plain { vectorConfig with sltiuImmExt := .sign } 0#32).cfg.sltiuImmExt = .sign := by decide

theorem test_witness_ExtensionCopiesOrClearsHighBits : 0 < 1 ∧ 1 ≤ 32 ∧ 0 < 32 ∧ 32 ≤ 32 ∧ 31 < 32 := by decide

theorem test_witness_LoadsAndStoresUseBaseDisplacement_load :
    ∃ t, exec (.lw 3#5 1#5 0#12) (plain vectorConfig 0#32) = .next t := ⟨_, rfl⟩

theorem test_witness_LoadsAndStoresUseBaseDisplacement_outOfRange :
    (plain vectorConfig 0#32).inRange ((plain vectorConfig 0#32).ea 0#5 0xFFF#12) = false ∧
      ∃ t, exec (.sw 2#5 0#5 0xFFF#12) (plain vectorConfig 0#32) = .next t := ⟨by decide, _, rfl⟩

/-- In range, the last byte of the word below and the first of the word above lie outside the word stored to. -/
theorem test_witness_LoadsAndStoresUseBaseDisplacement_inRange :
    (∃ t, exec (.sb 2#5 1#5 3#12) (plain vectorConfig 0#32) = .next t) ∧
      wordIndex 0x1FF#32 ≠ wordIndex ((plain vectorConfig 0#32).ea 1#5 3#12) ∧
      wordIndex 0x204#32 ≠ wordIndex ((plain vectorConfig 0#32).ea 1#5 3#12) := ⟨⟨_, rfl⟩, by decide, by decide⟩

theorem test_witness_LoadsAndStoresUseBaseDisplacement_step :
    runsFreely (plain vectorConfig 0x0000A183#32) 0x0000A183#32 (.lw 3#5 1#5 0#12) ∧
      ∃ t, step (plain vectorConfig 0x0000A183#32) = .next t :=
  ⟨⟨⟨rfl, rfl⟩, by decide, by decide⟩, _, rfl⟩

/-- Not stuck: at offset 3 under `TRUNCATE`, at offset 2 under `STUCK`, out of range at offset 3 under `STUCK`. -/
theorem test_witness_HalfwordLoadsExtendTwoBytesOfOneWord :
    ¬ HalfwordStuck (plain vectorConfig 0#32) ((plain vectorConfig 0#32).ea 1#5 3#12) ∧
      ¬ HalfwordStuck (plain stuckConfig 0#32) ((plain stuckConfig 0#32).ea 1#5 2#12) ∧
      ¬ HalfwordStuck (plain stuckConfig 0#32) ((plain stuckConfig 0#32).ea 0#5 0xFFF#12) := by
  unfold HalfwordStuck; decide

/-- The same addresses serve the store. -/
theorem test_witness_HalfwordStoreStaysInItsWord :
    ¬ HalfwordStuck (plain vectorConfig 0#32) ((plain vectorConfig 0#32).ea 1#5 3#12) ∧
      ¬ HalfwordStuck (plain stuckConfig 0#32) ((plain stuckConfig 0#32).ea 1#5 2#12) := by
  unfold HalfwordStuck; decide

theorem test_witness_HalfwordAtOffsetThreeIsStuck :
    HalfwordStuck (plain stuckConfig 0#32) ((plain stuckConfig 0#32).ea 1#5 3#12) := by
  unfold HalfwordStuck; decide

/-- The last address in range and the first one out of range. -/
theorem test_witness_WordStoreReplacesTheWord :
    (plain vectorConfig 0#32).inRange 0xFFF#32 = true ∧ (plain vectorConfig 0#32).inRange 0x1000#32 = false := by decide

theorem test_witness_WordReadUsesTheWordIndex :
    (0xFFF#32 : Word).toNat / 4 < (plain vectorConfig 0#32).cfg.memWords ∧
      (0xFFC#32 : Word).toNat / 4 = (0xFFF#32 : Word).toNat / 4 ∧
      (plain vectorConfig 0#32).cfg.memWords ≤ (0x1000#32 : Word).toNat / 4 := by decide

theorem test_witness_LoadsReturnWhatStoresWrote_word :
    (plain vectorConfig 0#32).inRange 0xFFC#32 = true ∧ lane 0xFFC#32 = 0 ∧
      (plain vectorConfig 0#32).inRange ((plain vectorConfig 0#32).ea 1#5 0#12) = true ∧
      lane ((plain vectorConfig 0#32).ea 1#5 0#12) ≠ 3 ∧ 3#5 ≠ 0#5 := by decide

theorem test_witness_LoadsReturnWhatStoresWrote_execution :
    (∃ t u, exec (.sw 2#5 1#5 0#12) (plain vectorConfig 0#32) = .next t ∧ exec (.lw 3#5 1#5 0#12) t = .next u) ∧
      (∃ t u, exec (.sb 2#5 1#5 0#12) (plain vectorConfig 0#32) = .next t ∧ exec (.lbu 3#5 1#5 0#12) t = .next u) ∧
      ∃ t u, exec (.sh 2#5 1#5 0#12) (plain vectorConfig 0#32) = .next t ∧ exec (.lhu 3#5 1#5 0#12) t = .next u :=
  ⟨⟨_, _, rfl, rfl⟩, ⟨_, _, rfl, rfl⟩, _, _, rfl, rfl⟩

/-- BEQ of a register with itself is taken, BNE of it is not. -/
theorem test_witness_BranchesRedirectOnTheirCondition :
    runsFreely (plain vectorConfig 0x00108463#32) 0x00108463#32 (.beq 1#5 1#5 8#13) ∧
      runsFreely (plain vectorConfig 0x00109463#32) 0x00109463#32 (.bne 1#5 1#5 8#13) ∧
      (plain vectorConfig 0x00109463#32).readReg 1#5 = 0x200#32 :=
  ⟨⟨⟨rfl, rfl⟩, by decide, by decide⟩, ⟨⟨rfl, rfl⟩, by decide, by decide⟩, by decide⟩

theorem test_witness_JalrUsesTheOldBaseAndThePolicy :
    (plain vectorConfig 0#32).cfg.jalrClearsBit0 = true ∧
      (plain { vectorConfig with jalrClearsBit0 := false } 0#32).cfg.jalrClearsBit0 = false := by decide

theorem test_witness_UpperImmediateIsShiftedOnce :
    decode 0xFFFFF1B7#32 = .hit (.lui 3#5 0xFFFFF#20) ∧ decode 0xFFFFF197#32 = .hit (.auipc 3#5 0xFFFFF#20) := by decide

theorem test_witness_FenceChangesOnlyPc :
    bits 0x8330000F#32 0 7 = 0x0F#7 ∧ bits 0x8330000F#32 12 3 = 0#3 ∧ FreeRunning (plain vectorConfig 0x8330000F#32) ∧
      (plain vectorConfig 0x8330000F#32).fetch = some 0x8330000F#32 := ⟨by decide, by decide, ⟨rfl, rfl⟩, by decide⟩

theorem test_witness_EcallFollowsItsAction :
    bits 0x000000F3#32 0 7 = 0x73#7 ∧ bits 0x000000F3#32 12 3 = 0#3 ∧ bits 0x000000F3#32 20 12 = 0#12 ∧
      FreeRunning (plain vectorConfig 0x000000F3#32) ∧
      (plain vectorConfig 0x000000F3#32).fetch = some 0x000000F3#32 ∧
      (plain vectorConfig 0x000000F3#32).cfg.ecallAction = .halt := by
  exact ⟨by decide, by decide, by decide, ⟨rfl, rfl⟩, by decide, by decide⟩

theorem test_witness_EcallFollowsItsAction_nop :
    FreeRunning (plain { vectorConfig with ecallAction := .nop } 0x00000073#32) ∧
      (plain { vectorConfig with ecallAction := .nop } 0x00000073#32).fetch = some 0x00000073#32 ∧
      (plain { vectorConfig with ecallAction := .nop } 0x00000073#32).cfg.ecallAction = .nop :=
  ⟨⟨rfl, rfl⟩, by decide, by decide⟩

theorem test_witness_EbreakTogglesStepMode :
    bits 0x00100073#32 0 7 = 0x73#7 ∧ bits 0x00100073#32 12 3 = 0#3 ∧ bits 0x00100073#32 20 12 = 1#12 ∧
      FreeRunning (plain vectorConfig 0x00100073#32) ∧
      (plain vectorConfig 0x00100073#32).fetch = some 0x00100073#32 :=
  ⟨by decide, by decide, by decide, ⟨rfl, rfl⟩, by decide⟩

/-- The largest backward offsets are well-formed. -/
theorem test_witness_DecodeOfEncodeIsTheInstruction :
    (Instr.bge 0#5 0#5 0x1000#13).wellFormed = true ∧ (Instr.jal 31#5 0x100000#21).wellFormed = true ∧
      (Instr.add 31#5 31#5 31#5).wellFormed = true := by decide

theorem test_witness_EncodeOfDecodeIsTheWord : decode 0x80005063#32 = .hit (.bge 0#5 0#5 0x1000#13) := by decide

theorem test_witness_DecodeAgreesWithMaskAndMatch : 0xFFFFF1B7#32 &&& Op.lui.maskWord = Op.lui.matchWord := by decide

/-- Out of range from `4 * MEM_WORDS` on; a miss and an instruction at the last word. -/
theorem test_witness_StepRunsTheDecodedInstruction :
    (FreeRunning (bench vectorConfig 0x1000#32 [] [] 0#32) ∧
        (bench vectorConfig 0x1000#32 [] [] 0#32).cfg.memWords ≤ (bench vectorConfig 0x1000#32 [] [] 0#32).pc.toNat / 4) ∧
      (bench vectorConfig 0xFFC#32 [] [] 0x7F#32).pc.toNat / 4 < (bench vectorConfig 0xFFC#32 [] [] 0x7F#32).cfg.memWords ∧
      decode ((bench vectorConfig 0xFFC#32 [] [] 0x7F#32).readWord 0xFFC#32) =
        .instructionNotFound ⟨0x7F#7, 0#3, 0#7, 0#12⟩ := ⟨⟨⟨rfl, rfl⟩, by decide⟩, by decide, by decide⟩

/-- An instruction that answers a next state, and one that has no step. -/
theorem test_witness_StepRunsTheDecodedInstruction_hit :
    (decode ((plain vectorConfig 0x002081B3#32).readWord 0x100#32) = .hit (.add 3#5 1#5 2#5) ∧
        ∃ u, exec (.add 3#5 1#5 2#5) { plain vectorConfig 0x002081B3#32 with redirect := false } = .next u) ∧
      decode ((plain stuckConfig 0x00309183#32).readWord 0x100#32) = .hit (.lh 3#5 1#5 3#12) ∧
      exec (.lh 3#5 1#5 3#12) { plain stuckConfig 0x00309183#32 with redirect := false } = .fault .halfwordStuck :=
  ⟨⟨by decide, _, rfl⟩, by decide, rfl⟩

/-- The two sides of the capacity. -/
theorem test_witness_OutOfBoundsFetchHalts :
    FreeRunning (bench vectorConfig 0x1000#32 [] [] 0#32) ∧
      (bench vectorConfig 0x1000#32 [] [] 0#32).cfg.memWords ≤ (bench vectorConfig 0x1000#32 [] [] 0#32).pc.toNat / 4 ∧
      ¬ (bench vectorConfig 0xFFF#32 [] [] 0#32).cfg.memWords ≤ (bench vectorConfig 0xFFF#32 [] [] 0#32).pc.toNat / 4 :=
  ⟨⟨rfl, rfl⟩, by decide, by decide⟩

theorem test_witness_FetchReadsTheWholeWord :
    (bench vectorConfig 0xFFF#32 [] [] 0#32).pc.toNat / 4 < (bench vectorConfig 0xFFF#32 [] [] 0#32).cfg.memWords ∧
      wordIndex 0xFFC#32 = wordIndex (bench vectorConfig 0xFFF#32 [] [] 0#32).pc ∧
      (bench vectorConfig 0x1000#32 [] [] 0#32).cfg.memWords ≤ (bench vectorConfig 0x1000#32 [] [] 0#32).pc.toNat / 4 := by
  decide

theorem test_witness_SequentialInstructionsAdvanceByFour :
    (Instr.lui 3#5 1#20).isControlTransfer = false ∧
      runsFreely (plain vectorConfig 0x000011B7#32) 0x000011B7#32 (.lui 3#5 1#20) ∧
      ∃ u, exec (.lui 3#5 1#20) { plain vectorConfig 0x000011B7#32 with redirect := false } = .next u ∧
        u.redirect = false ∧ u.runState = .running :=
  ⟨by decide, ⟨⟨rfl, rfl⟩, by decide, by decide⟩, _, rfl, rfl, rfl⟩

/-- A miss short of the limit of 2, and one that reaches it. -/
theorem test_witness_MissIsSkippedOrHaltsAtTheLimit :
    FreeRunning (plain { vectorConfig with missHaltLimit := 2 } 0#32) ∧
      (plain { vectorConfig with missHaltLimit := 2 } 0#32).fetch = some 0#32 ∧
      decode 0#32 = .instructionNotFound ⟨0#7, 0#3, 0#7, 0#12⟩ ∧
      ¬ (0 < 2 ∧ 2 ≤ (plain { vectorConfig with missHaltLimit := 2 } 0#32).missCount + 1) ∧
      (0 < 2 ∧ 2 ≤ ({ plain { vectorConfig with missHaltLimit := 2 } 0#32 with missCount := 1 } : State).missCount + 1) :=
  ⟨⟨rfl, rfl⟩, by decide, by decide, by decide, by decide⟩

/-- A free core, and a suspended one that takes the command `step`. -/
theorem test_witness_OneTraceStringPerExecutedInstruction :
    (TakesStep (plain vectorConfig 0x002081B3#32) ∧ FetchesInstr (plain vectorConfig 0x002081B3#32) (.add 3#5 1#5 2#5) ∧
        ∃ t, step (plain vectorConfig 0x002081B3#32) = .next t) ∧
      TakesStep (suspendedState [.step]) ∧ FetchesInstr (suspendedState [.step]) (.ebreak 0#5 0#5) ∧
      ∃ t, step (suspendedState [.step]) = .next t :=
  ⟨⟨⟨rfl, .inl rfl⟩, ⟨0x002081B3#32, by decide, by decide⟩, _, rfl⟩,
    ⟨rfl, .inr ⟨rfl, [], rfl⟩⟩, ⟨0x00100073#32, by decide, by decide⟩, _, rfl⟩

theorem test_witness_HaltedIsTerminal :
    ((plain vectorConfig 0#32).halt .exit).runState = .halted .exit := rfl

theorem test_witness_HaltKeepsPcRegistersAndMemory :
    (plain vectorConfig 0x00000073#32).runState = .running ∧
      ∃ t, step (plain vectorConfig 0x00000073#32) = .next t ∧ t.runState ≠ .running := ⟨rfl, _, rfl, nofun⟩

/-- Step mode changed by an EBREAK, and by `continue`. -/
theorem test_witness_ControlStateChangesOnlyByNamedEvents_stepMode :
    (∃ t, step (plain vectorConfig 0x00100073#32) = .next t ∧ t.stepMode ≠ (plain vectorConfig 0x00100073#32).stepMode) ∧
      ∃ t, step (suspendedState [.continue]) = .next t ∧ t.stepMode ≠ (suspendedState [.continue]).stepMode :=
  ⟨⟨_, rfl, nofun⟩, _, rfl, nofun⟩

/-- The miss count changed by a miss, by an executed instruction, and by `reset`. -/
theorem test_witness_ControlStateChangesOnlyByNamedEvents_missCount :
    (∃ t, step (plain vectorConfig 0#32) = .next t ∧ t.missCount ≠ (plain vectorConfig 0#32).missCount) ∧
      (∃ t, step { plain vectorConfig 0x002081B3#32 with missCount := 1 } = .next t ∧ t.missCount ≠ 1) ∧
      ∃ t, step { suspendedState [.reset] with missCount := 1 } = .next t ∧ t.missCount ≠ 1 :=
  ⟨⟨_, rfl, nofun⟩, ⟨_, rfl, nofun⟩, _, rfl, nofun⟩

/-- The run state changed by an out-of-bounds fetch, an ECALL, a miss at the limit, and `exit`. -/
theorem test_witness_ControlStateChangesOnlyByNamedEvents_runState :
    (∃ t, step (bench vectorConfig 0x1000#32 [] [] 0#32) = .next t ∧
        t.runState ≠ (bench vectorConfig 0x1000#32 [] [] 0#32).runState) ∧
      (∃ t, step (plain vectorConfig 0x00000073#32) = .next t ∧
        t.runState ≠ (plain vectorConfig 0x00000073#32).runState) ∧
      (∃ t, step (plain { vectorConfig with missHaltLimit := 1 } 0#32) = .next t ∧
        t.runState ≠ (plain { vectorConfig with missHaltLimit := 1 } 0#32).runState) ∧
      ∃ t, step (suspendedState [.exit]) = .next t ∧ t.runState ≠ (suspendedState [.exit]).runState :=
  ⟨⟨_, rfl, nofun⟩, ⟨_, rfl, nofun⟩, ⟨_, rfl, nofun⟩, _, rfl, nofun⟩

theorem test_witness_AtMostOneConditionPerStep :
    (∃ t, step (plain vectorConfig 0#32) = .next t) ∧
      runsFreely (plain vectorConfig 0x002081B3#32) 0x002081B3#32 (.add 3#5 1#5 2#5) ∧
      (∃ t, step (plain vectorConfig 0x002081B3#32) = .next t) ∧
      ∃ t, exec (.add 3#5 1#5 2#5) (plain vectorConfig 0x002081B3#32) = .next t :=
  ⟨⟨_, rfl⟩, ⟨⟨rfl, rfl⟩, by decide, by decide⟩, ⟨_, rfl⟩, _, rfl⟩

theorem test_witness_EveryInstructionRunsUnlessStuck :
    (¬ ∃ a, halfwordAddress (.lh 3#5 1#5 3#12) (plain vectorConfig 0#32) = some a ∧
        HalfwordStuck (plain vectorConfig 0#32) a) ∧
      ∃ a, halfwordAddress (.lh 3#5 1#5 3#12) (plain stuckConfig 0#32) = some a ∧ HalfwordStuck (plain stuckConfig 0#32) a := by
  refine ⟨?_, _, rfl, by unfold HalfwordStuck; decide⟩
  rintro ⟨a, h, -, -, hs⟩
  exact absurd hs (by decide)

theorem test_witness_SuspendedWithoutCommandHasNoStep :
    (suspendedState []).runState = .running ∧ (suspendedState []).stepMode = true ∧ (suspendedState []).hostQueue = [] :=
  ⟨rfl, rfl, rfl⟩

/-- The one instruction is an EBREAK, which leaves the core free. -/
theorem test_witness_HostStepMakesOneStep :
    (suspendedState [.step]).runState = .running ∧ (suspendedState [.step]).stepMode = true ∧
      (suspendedState [.step]).hostQueue = .step :: [] ∧
      ∃ t, step (suspendedState [.step]) = .next t ∧ t.runState = .running ∧ t.stepMode = false :=
  ⟨rfl, rfl, rfl, _, rfl, rfl, rfl⟩

theorem test_witness_HostContinueFreesTheCore :
    (suspendedState [.continue]).runState = .running ∧ (suspendedState [.continue]).stepMode = true ∧
      (suspendedState [.continue]).hostQueue = .continue :: [] ∧
      ∃ t, step (plain vectorConfig 0x00100073#32) = .next t ∧ t.stepMode = true := ⟨rfl, rfl, rfl, _, rfl, rfl⟩

theorem test_witness_HostResetKeepsMemory :
    (suspendedState [.reset]).runState = .running ∧ (suspendedState [.reset]).stepMode = true ∧
      (suspendedState [.reset]).hostQueue = .reset :: [] := ⟨rfl, rfl, rfl⟩

theorem test_witness_HostExitHalts :
    (suspendedState [.exit]).runState = .running ∧ (suspendedState [.exit]).stepMode = true ∧
      (suspendedState [.exit]).hostQueue = .exit :: [] := ⟨rfl, rfl, rfl⟩

theorem test_witness_DumpAndMalformedChangeNoCoreState :
    (suspendedState [.dump 2 0xFFC#32]).hostQueue = .dump 2 0xFFC#32 :: [] ∧
      (suspendedState [.malformed "foo"]).hostQueue = .malformed "foo" :: [] ∧
      (suspendedState [.malformed "foo"]).runState = .running ∧ (suspendedState [.malformed "foo"]).stepMode = true :=
  ⟨rfl, rfl, rfl, rfl⟩

theorem test_witness_StoreIsSeenByTheNextFetch :
    (plain vectorConfig 0#32).inRange ((plain vectorConfig 0#32).ea 1#5 3#12) = true ∧
      (∃ t, exec (.sw 2#5 1#5 3#12) (plain vectorConfig 0#32) = .next t) ∧
      wordIndex 0x201#32 = wordIndex ((plain vectorConfig 0#32).ea 1#5 3#12) := ⟨by decide, ⟨_, rfl⟩, by decide⟩

theorem test_witness_CanonicalMemoriesThatReadAlikeAreEqual :
    Memory.wf { vectorConfig with memWords := 1 } [(0, 1#8), (3, 2#8)] = true ∧
      ∀ a < 4 * 1, Memory.readByte 0#32 [(0, 1#8), (3, 2#8)] a = Memory.readByte 0#32 [(0, 1#8), (3, 2#8)] a := by decide

/-- The smallest memory, and an image that fills the memory from the start address on. -/
theorem test_witness_PowerOnLeavesTheConfiguredState :
    ({ vectorConfig with memWords := 1 } : Config).valid = true ∧
      ({ vectorConfig with memWords := 1 } : Config).imageFits = true ∧
      ({ vectorConfig with memWords := 4, startAddr := 8#32, image := [1#32, 2#32] } : Config).valid = true ∧
      ({ vectorConfig with memWords := 4, startAddr := 8#32, image := [1#32, 2#32] } : Config).imageFits = true ∧
      wordIndex 0xF#32 < 4 := by decide

/-- Refused just past each range; the image one word too long. -/
theorem test_witness_PowerOnRefusesWhatHasNoRun :
    ¬ (1 ≤ 0 ∧ 0 ≤ 2 ^ 30) ∧ ¬ (2 ^ 30 + 1 ≤ 2 ^ 30) ∧ ¬ ((2#32 : Word).toNat % 4 = 0) ∧
      (1 ≤ 4 ∧ 4 ≤ 2 ^ 30 ∧ (8#32 : Word).toNat % 4 = 0 ∧ (8#32 : Word).toNat / 4 < 4) ∧
      4 < (8#32 : Word).toNat / 4 + [1#32, 2#32, 3#32].length := by decide

theorem test_witness_ImageFileIsLittleEndianWords :
    ([1#8, 2#8, 3#8, 4#8] : List Byte).length % 4 = 0 ∧ ([1#8] : List Byte).length % 4 ≠ 0 := by decide

/-- A state of the invariant with a step, in each of its clauses: running short of a miss limit. -/
theorem test_witness_StepKeepsTheRunInvariant :
    RunInvariant (bench { vectorConfig with missHaltLimit := 1 } 0x100#32 [] [(0x200#32, 0x8000FF80#32)] 0#32) ∧
      ∃ t, step (bench { vectorConfig with missHaltLimit := 1 } 0x100#32 [] [(0x200#32, 0x8000FF80#32)] 0#32) = .next t :=
  ⟨⟨by decide, by decide, by decide, rfl, fun _ _ => by decide, nofun, nofun, nofun, nofun⟩, _, rfl⟩

theorem test_witness_EveryStartMeetsTheRunInvariant :
    ∃ s, powerOn { vectorConfig with memWords := 4, startAddr := 8#32, image := [1#32, 2#32] } = .next s := ⟨_, rfl⟩

end Sys2Proof.Tests
end

section
/-! PROOFS. 00_scope.md: the two extensions to 32 bits. -/

namespace Sys2Proof.Machine

/-- Zero extension, one bit at a time. -/
theorem zext_getLsbD {n : Nat} (v : BitVec n) {k : Nat} (hk : k < 32) :
    (zext v).getLsbD k = if k < n then v.getLsbD k else false := by
  have hsame : (zext v).getLsbD k = v.getLsbD k := by
    simp [zext, hk]
  split
  case isTrue => exact hsame
  case isFalse hn => rw [hsame, BitVec.getLsbD_of_ge v k (Nat.le_of_not_lt hn)]

/-- Settles O12: each extension by its own bit lemma. Neither needs the bounds on the width, since the extensions also
keep the low 32 bits of a wider value. -/
theorem extensionCopiesOrClearsHighBits : Obligations.ExtensionCopiesOrClearsHighBits :=
  fun _ v _ _ _ hk => ⟨sext_getLsbD v hk, zext_getLsbD v hk⟩

end Sys2Proof.Machine
end

section
/-! PROOFS. 10_state.md: the registers (R21), the fetch out of bounds (R31) and the advance of `pc` (R32). -/

namespace Sys2Proof.Machine

/-! ## Registers -/

/-- A write to x0 is discarded (10_state.md R21). -/
@[simp] theorem State.writeReg_zero (s : State) (v : Word) : s.writeReg 0#5 v = s := rfl

/-- Settles O1: the read and the frame of a register write are the laws of `State.writeReg`. -/
theorem registerZeroIsHardwired : Obligations.RegisterZeroIsHardwired := by
  intro s v
  refine ⟨State.readReg_zero s, State.writeReg_zero s v, fun r hr => ⟨?_, setsOnlyRegister_writeReg s r v⟩⟩
  rw [State.readReg_writeReg_self, if_neg hr]

/-! ## The fetch out of bounds -/

/-- The fetch gives no word exactly where `pc` is past the capacity (10_state.md R31). -/
theorem fetch_eq_none_iff {s : State} : s.fetch = none ↔ s.cfg.memWords ≤ wordIndex s.pc := by
  refine ⟨fun h => Nat.le_of_not_lt fun hlt => ?_, fetch_of_ge⟩
  rw [fetch_of_lt hlt] at h
  cases h

/-- Of the ways a running core's own step ends, a miss stops it at most with `missLimit` and an instruction at most with
`ecall`, so only a failed fetch halts it with `outOfBoundsFetch`. -/
theorem fetch_eq_none_of_haltsOutOfBounds {s t : State} (hr : s.runState = .running) (h : s.coreStep = .next t)
    (ht : t.runState = .halted .outOfBoundsFetch) : s.fetch = none := by
  obtain ⟨hf, -⟩ | ⟨w, info, -, -, rfl⟩ | ⟨w, i, u, -, -, he, rfl⟩ := coreStep_cases h
  · exact hf
  · rw [State.miss_runState] at ht
    split at ht <;> simp [hr] at ht
  · rw [State.retire_runState] at ht
    obtain hu | ⟨-, -, rfl⟩ := exec_runState he
    · simp [hu, hr] at ht
    · simp at ht

/-- Settles O38: the step past the capacity is `State.fetchOutOfBounds`, and no other step halts with this reason. -/
theorem outOfBoundsFetchHalts : Obligations.OutOfBoundsFetchHalts := by
  intro s hfree
  have hout (h : s.cfg.memWords ≤ wordIndex s.pc) : step s = .next s.fetchOutOfBounds := by
    rw [step_free hfree, coreStep_outOfBounds (fetch_of_ge h)]
  refine ⟨⟨?_, fun h => ⟨_, hout h, rfl⟩⟩, fun h => ⟨fetch_of_ge h, _, hout h, rfl, rfl, fun _ => rfl, rfl⟩⟩
  rintro ⟨t, hstep, ht⟩
  rw [step_free hfree] at hstep
  exact fetch_eq_none_iff.mp (fetch_eq_none_of_haltsOutOfBounds hfree.1 hstep ht)

/-! ## The advance of `pc` -/

/-- An instruction leaves `pc` and the redirect flag alone, unless it is a branch or jump that redirects
(10_state.md R32, R33). -/
theorem exec_samePc_or_redirects {i : Instr} {s u : State} (h : exec i s = .next u) :
    SamePc s u ∨ i.isControlTransfer = true ∧ u.redirect = true := by
  cases exec_effect h with
  | nothing | halts | toggles => exact .inl ⟨rfl, rfl⟩
  | register rd v => exact .inl ⟨State.writeReg_pc s rd v, State.writeReg_redirect s rd v⟩
  | store a w => exact .inl ⟨State.writeWord_pc s a w, State.writeWord_redirect s a w⟩
  | redirect v hi => exact .inr ⟨hi, rfl⟩
  | link rd v l hi => exact .inr ⟨hi, State.writeReg_redirect (s.jump v) rd l⟩

/-- Where the executed instruction did not redirect and the core still runs, the core's own step adds 4 to `pc`
(10_state.md R32). -/
theorem coreStep_pc_next {s u : State} {w : Word} {i : Instr} (hf : s.fetch = some w) (hd : decode w = .hit i)
    (he : exec i s.beginStep = .next u) (hredirect : u.redirect = false) (hr : u.runState = .running) :
    ∃ t, s.coreStep = .next t ∧ t.pc = s.pc + 4#32 := by
  refine ⟨u.retire i, coreStep_hit hf hd he, ?_⟩
  obtain hsame | ⟨-, hjump⟩ := exec_samePc_or_redirects he
  · rw [State.retire_pc_next u i hr hredirect, hsame.pc, State.beginStep_pc]
  · rw [hredirect] at hjump
    cases hjump

/-- Settles O40: both halves rest on what an instruction can do to `pc`. -/
theorem sequentialInstructionsAdvanceByFour : Obligations.SequentialInstructionsAdvanceByFour := by
  refine ⟨fun i s u hi he => ?_, fun s u w i hfree hf hd he hredirect hr => ?_⟩
  · obtain hsame | ⟨hct, -⟩ := exec_samePc_or_redirects he
    · exact ⟨hsame.pc, hsame.redirect⟩
    · rw [hi] at hct
      cases hct
  · obtain ⟨t, ht, hpc⟩ := coreStep_pc_next hf hd he hredirect hr
    exact ⟨t, (step_free hfree).trans ht, by rw [hpc, BitVec.toNat_add]; rfl⟩

end Sys2Proof.Machine
end

section
/-! PROOFS. 20_memory.md: the word read (R53), the word write (R59) and the fetch's read (R57). -/

namespace Sys2Proof.Machine

/-! ## The word read -/

/-- In range a word read gives the memory's word at the address's index (20_memory.md R53). -/
theorem State.readWord_of_lt {s : State} {a : Word} (h : wordIndex a < s.cfg.memWords) :
    s.readWord a = s.mem.readWord s.cfg.memFill (wordIndex a) :=
  if_pos (decide_eq_true h)

/-- Out of range a word read gives 0 (20_memory.md R53). -/
theorem State.readWord_of_ge {s : State} {a : Word} (h : s.cfg.memWords ≤ wordIndex a) : s.readWord a = 0#32 :=
  if_neg fun hin => absurd (of_decide_eq_true hin) (Nat.not_lt.mpr h)

/-- Each byte of the word containing an address is that word's lane (20_memory.md R54). -/
theorem State.byteLane_readWord (s : State) {a b : Word} (h : wordIndex b = wordIndex a) :
    byteLane (s.readWord a) (lane b) = s.memRead1 b := by
  rw [State.memRead1_eq, State.readWord_index s h]

/-- Settles O21: the two cases of a word read, and the lanes of the word it gives. -/
theorem wordReadUsesTheWordIndex : Obligations.WordReadUsesTheWordIndex :=
  fun s _ =>
    ⟨fun hlt => ⟨State.readWord_of_lt hlt, fun _ hb => ⟨State.readWord_index s hb, State.byteLane_readWord s hb⟩⟩,
      State.readWord_of_ge⟩

/-! ## The word write -/

/-- Out of range a word write does nothing (20_memory.md R59). -/
theorem State.writeWord_outOfRange {s : State} {a : Word} (h : s.inRange a = false) (w : Word) : s.writeWord a w = s :=
  if_neg (Bool.eq_false_iff.mp h)

/-- In range a word written is read back (20_memory.md R59). -/
theorem State.readWord_writeWord_self {s : State} {a : Word} (h : s.inRange a = true) (w : Word) :
    (s.writeWord a w).readWord a = w := by
  rw [State.readWord_writeWord, if_pos ⟨h, rfl⟩]

/-- SW writes `x[rs2]` as a word at the effective address (43_load_store.md R168). -/
theorem exec_sw (s : State) (rs2 rs1 : RegIdx) (imm : BitVec 12) :
    exec (.sw rs2 rs1 imm) s = .next (s.memWrite4 (s.ea rs1 imm) (s.readReg rs2)) := rfl

/-- Settles O19: `memWrite4` and `memRead4` are the word write and the word read, and SW is `memWrite4`. -/
theorem wordStoreReplacesTheWord : Obligations.WordStoreReplacesTheWord := by
  refine ⟨fun s a v => ⟨?frame, ?outOfRange, ?roundTrip⟩, fun s rs2 rs1 imm => ⟨_, exec_sw s rs2 rs1 imm, rfl⟩⟩
  case frame => exact setsOnlyMemory_writeWord s a v _ (State.memRead1_writeWord s a v)
  case outOfRange => exact fun h => State.writeWord_outOfRange h v
  case roundTrip => exact fun h => State.readWord_writeWord_self h v

/-! ## The fetch's read -/

/-- Only the word index of `pc` matters to the fetch: its low two bits are ignored (20_memory.md R57). -/
theorem fetch_withPc_index (s : State) {p : Word} (h : wordIndex p = wordIndex s.pc) :
    ({ s with pc := p } : State).fetch = s.fetch := by
  simp only [State.fetch, h]

/-- Settles O39: the fetch in range is the word read at `pc`, so its lanes are those of that read. -/
theorem fetchReadsTheWholeWord : Obligations.FetchReadsTheWholeWord := by
  refine fun s => ⟨fetch_of_ge, fun hlt => ⟨s.readWord s.pc, fetch_of_lt hlt, ?lanes, ?lowBits⟩⟩
  case lanes => exact fun b hb => State.byteLane_readWord s hb
  case lowBits => exact fun p hp => (fetch_withPc_index s hp).trans (fetch_of_lt hlt)

end Sys2Proof.Machine
end

section
/-! PROOFS. 30_encoding.md: the U immediate, shifted once (R92). -/

namespace Sys2Proof.Machine

/-- The mask of R92 is the upper immediate whose 20 bits are all set. -/
theorem upperMask_eq : 0xFFFFF000#32 = upperImm (BitVec.allOnes 20) := rfl

/-- The U field of a word, shifted, is that word with its low 12 bits cleared (30_encoding.md R92). -/
theorem upperImm_immU (w : Word) : upperImm (Fields.ofWord w).immU = w &&& 0xFFFFF000#32 := by
  refine word_ext fun i hi => ?_
  have hfield : (Fields.ofWord w).immU = bits w 12 20 := rfl
  rw [hfield, upperMask_eq, BitVec.getLsbD_and, upperImm_getLsbD, upperImm_getLsbD]
  split
  case isTrue => rw [Bool.and_false]
  case isFalse hlow =>
    have hlt : i - 12 < 20 := by omega
    have hpos : 12 + (i - 12) = i := by omega
    simp only [getLsbD_bits, BitVec.getLsbD_allOnes, hlt, hpos, decide_true, Bool.true_and, Bool.and_true]

/-- A decoded instruction has its word's fields as operands (30_encoding.md R95). -/
theorem instr_of_decode_hit {w : Word} {i : Instr} (h : decode w = .hit i) : (Fields.ofWord w).instr i.op = i := by
  obtain ⟨o, -, rfl⟩ := decode_eq_hit.mp h
  rw [instr_op]

/-- LUI writes the shifted immediate (45_upper_immediate.md R200). -/
theorem exec_lui (rd : RegIdx) (imm : BitVec 20) (s : State) :
    exec (.lui rd imm) s = .next (s.writeReg rd (upperImm imm)) := rfl

/-- AUIPC writes `pc` plus the shifted immediate (45_upper_immediate.md R201). -/
theorem exec_auipc (rd : RegIdx) (imm : BitVec 20) (s : State) :
    exec (.auipc rd imm) s = .next (s.writeReg rd (s.pc + upperImm imm)) := rfl

/-- Settles O27: the field shifted is the masked word, and a decoded LUI or AUIPC carries that field and shifts it
once. -/
theorem upperImmediateIsShiftedOnce : Obligations.UpperImmediateIsShiftedOnce := by
  refine fun w => ⟨rfl, upperImm_immU w, fun s rd imm => ⟨fun hlui => ?lui, fun hauipc => ?auipc⟩⟩
  case lui =>
    obtain ⟨-, rfl⟩ := Instr.lui.inj (instr_of_decode_hit hlui)
    rw [← upperImm_immU]
    exact ⟨_, exec_lui .., setsOnlyRegister_writeReg ..⟩
  case auipc =>
    obtain ⟨-, rfl⟩ := Instr.auipc.inj (instr_of_decode_hit hauipc)
    rw [← upperImm_immU]
    exact ⟨_, exec_auipc .., setsOnlyRegister_writeReg ..⟩

end Sys2Proof.Machine
end

section
/-! PROOFS. 41_alu_register.md: the register-register ALU instructions (R120). -/

namespace Sys2Proof.Machine

/-! ## What `exec` answers -/

/-- An instruction form writes into `rd` the value `f` computes from the old `x[rs1]` and `x[rs2]`, and does nothing
else (41_alu_register.md R120). -/
def WritesResultOf (op : RegIdx → RegIdx → RegIdx → Instr) (f : Word → Word → Word) : Prop :=
  ∀ (s : State) (rd rs1 rs2 : RegIdx),
    exec (op rd rs1 rs2) s = .next (s.writeReg rd (f (s.readReg rs1) (s.readReg rs2)))

theorem add_writesResult : WritesResultOf .add fun a b => a + b := fun _ _ _ _ => rfl

theorem sub_writesResult : WritesResultOf .sub fun a b => a - b := fun _ _ _ _ => rfl

theorem and_writesResult : WritesResultOf .and fun a b => a &&& b := fun _ _ _ _ => rfl

theorem or_writesResult : WritesResultOf .or fun a b => a ||| b := fun _ _ _ _ => rfl

theorem xor_writesResult : WritesResultOf .xor fun a b => a ^^^ b := fun _ _ _ _ => rfl

/-- The shift amount of SLL is the low 5 bits (41_alu_register.md R126). -/
theorem sll_writesResult : WritesResultOf .sll fun a b => a <<< (b.toNat % 32) := by
  intro s rd rs1 rs2
  simp only [exec, execSll, opReg, shiftAmount_eq]

/-- The shift amount of SRL is the low 5 bits (41_alu_register.md R127). -/
theorem srl_writesResult : WritesResultOf .srl fun a b => a >>> (b.toNat % 32) := by
  intro s rd rs1 rs2
  simp only [exec, execSrl, opReg, shiftAmount_eq]

/-- The shift amount of SRA is the low 5 bits (41_alu_register.md R128). -/
theorem sra_writesResult : WritesResultOf .sra fun a b => a.sshiftRight (b.toNat % 32) := by
  intro s rd rs1 rs2
  simp only [exec, execSra, opReg, shiftAmount_eq]

/-- SLT's comparator is the signed order (41_alu_register.md R129). -/
theorem slt_writesResult : WritesResultOf .slt fun a b => if a.toInt < b.toInt then 1#32 else 0#32 := by
  intro s rd rs1 rs2
  simp only [exec, execSlt, opReg, ltSigned, boolWord_decide]

/-- SLTU's comparator is the unsigned order (41_alu_register.md R130). -/
theorem sltu_writesResult : WritesResultOf .sltu fun a b => if a.toNat < b.toNat then 1#32 else 0#32 := by
  intro s rd rs1 rs2
  simp only [exec, execSltu, opReg, ltUnsigned, boolWord_decide]

/-! ## The step -/

/-- The core's own step at an instruction whose whole effect is one register write: `pc + 4`, that register, and
nothing else of registers, memory or raised conditions (10_state.md R30, R32). -/
theorem coreStep_writeReg {s : State} {w : Word} {i : Instr} {rd : RegIdx} {v : Word} (hr : s.runState = .running)
    (hf : s.fetch = some w) (hd : decode w = .hit i) (he : exec i s.beginStep = .next (s.beginStep.writeReg rd v)) :
    ∃ t, s.coreStep = .next t ∧ t.pc = s.pc + 4#32 ∧ SameMemory s t ∧ t.raised = s.raised ∧
      ∀ r : RegIdx, t.readReg r = if r = rd ∧ rd ≠ 0#5 then v else s.readReg r := by
  refine ⟨(s.beginStep.writeReg rd v).retire i, coreStep_hit hf hd he, ?pc, fun a => ?memory, ?raised, fun r => ?regs⟩
  case pc =>
    have hrun : (s.beginStep.writeReg rd v).runState = .running := (State.writeReg_runState ..).trans hr
    have hnojump : (s.beginStep.writeReg rd v).redirect = false := State.writeReg_redirect ..
    rw [State.retire_pc_next _ i hrun hnojump, State.writeReg_pc, State.beginStep_pc]
  case memory => exact State.memRead1_congr (by simp) (by simp) a
  case raised => rw [State.retire_raised, State.writeReg_raised, State.beginStep_raised]
  case regs => rw [State.readReg_retire, State.readReg_writeReg, State.readReg_beginStep]

/-- Settles O4: each of the ten forms writes its result, and the frame and the step follow from that alone. -/
theorem opInstructionsReadComputeWriteAdvance : Obligations.OpInstructionsReadComputeWriteAdvance := by
  intro p hp
  have hwrites : WritesResultOf p.1 p.2 := by
    revert p
    simp only [List.forall_mem_cons]
    exact ⟨add_writesResult, sub_writesResult, and_writesResult, or_writesResult, xor_writesResult, sll_writesResult,
      srl_writesResult, sra_writesResult, slt_writesResult, sltu_writesResult, List.forall_mem_nil _⟩
  intro s rd rs1 rs2
  refine ⟨⟨_, hwrites s rd rs1 rs2, setsOnlyRegister_writeReg ..⟩, fun w hfree hf hd => ?_⟩
  rw [step_free hfree]
  exact coreStep_writeReg hfree.1 hf hd (hwrites s.beginStep rd rs1 rs2)

end Sys2Proof.Machine
end

section
/-! PROOFS. 44_control_transfer.md: the branches (R180). -/

namespace Sys2Proof.Machine

/-! ## What `exec` answers -/

/-- An instruction form redirects to `pc` plus its offset where `c` holds of the old `x[rs1]` and `x[rs2]`, and does
nothing where it does not (44_control_transfer.md R180). -/
structure BranchesOn (op : RegIdx → RegIdx → BitVec 13 → Instr) (c : Word → Word → Prop) : Prop where
  taken : ∀ (s : State) (rs1 rs2 : RegIdx) (off : BitVec 13), c (s.readReg rs1) (s.readReg rs2) →
    exec (op rs1 rs2 off) s = .next (s.jump (s.pcTarget off))
  notTaken : ∀ (s : State) (rs1 rs2 : RegIdx) (off : BitVec 13), ¬ c (s.readReg rs1) (s.readReg rs2) →
    exec (op rs1 rs2 off) s = .next s

/-- A form that runs the shared `branch` branches on what its comparator decides. -/
theorem branchesOn_of_branch {op : RegIdx → RegIdx → BitVec 13 → Instr} {cond : Word → Word → Bool}
    {c : Word → Word → Prop} (hexec : ∀ rs1 rs2 off s, exec (op rs1 rs2 off) s = branch cond rs1 rs2 off s)
    (hcond : ∀ a b, cond a b = true ↔ c a b) : BranchesOn op c where
  taken := fun s rs1 rs2 off h => (hexec rs1 rs2 off s).trans (if_pos ((hcond _ _).mpr h))
  notTaken := fun s rs1 rs2 off h => (hexec rs1 rs2 off s).trans (if_neg (mt (hcond _ _).mp h))

theorem ltSigned_iff (a b : Word) : ltSigned a b = true ↔ a.toInt < b.toInt := decide_eq_true_iff

theorem not_ltSigned_iff (a b : Word) : (!ltSigned a b) = true ↔ ¬ a.toInt < b.toInt := by
  rw [Bool.not_eq_true', ← Bool.not_eq_true, ltSigned_iff]

theorem ltUnsigned_iff (a b : Word) : ltUnsigned a b = true ↔ a.toNat < b.toNat := decide_eq_true_iff

theorem not_ltUnsigned_iff (a b : Word) : (!ltUnsigned a b) = true ↔ ¬ a.toNat < b.toNat := by
  rw [Bool.not_eq_true', ← Bool.not_eq_true, ltUnsigned_iff]

theorem beq_branchesOn : BranchesOn .beq fun a b => a = b :=
  branchesOn_of_branch (fun _ _ _ _ => rfl) fun _ _ => decide_eq_true_iff

theorem bne_branchesOn : BranchesOn .bne fun a b => a ≠ b :=
  branchesOn_of_branch (fun _ _ _ _ => rfl) fun _ _ => decide_eq_true_iff

theorem blt_branchesOn : BranchesOn .blt fun a b => a.toInt < b.toInt :=
  branchesOn_of_branch (fun _ _ _ _ => rfl) ltSigned_iff

theorem bge_branchesOn : BranchesOn .bge fun a b => ¬ a.toInt < b.toInt :=
  branchesOn_of_branch (fun _ _ _ _ => rfl) not_ltSigned_iff

theorem bltu_branchesOn : BranchesOn .bltu fun a b => a.toNat < b.toNat :=
  branchesOn_of_branch (fun _ _ _ _ => rfl) ltUnsigned_iff

theorem bgeu_branchesOn : BranchesOn .bgeu fun a b => ¬ a.toNat < b.toNat :=
  branchesOn_of_branch (fun _ _ _ _ => rfl) not_ltUnsigned_iff

/-! ## The step -/

section
variable {s : State} {w : Word} {i : Instr}

/-- The core's own step at an instruction that only redirects leaves exactly its target in `pc`, and nothing else of
registers, memory or raised conditions changed (10_state.md R33). -/
theorem coreStep_jump {target : Word} (hf : s.fetch = some w) (hd : decode w = .hit i)
    (he : exec i s.beginStep = .next (s.beginStep.jump target)) :
    ∃ t, s.coreStep = .next t ∧ t.pc = target ∧ SameRegs s t ∧ SameMemory s t ∧ t.raised = s.raised :=
  ⟨_, coreStep_hit hf hd he, State.retire_pc_redirected _ i (State.jump_redirect ..), State.readReg_retire _ i,
    State.memRead1_retire _ i, State.retire_raised ..⟩

/-- The core's own step at an instruction that does nothing leaves `pc + 4`, and nothing else of registers, memory or
raised conditions changed (10_state.md R32). -/
theorem coreStep_nothing (hr : s.runState = .running) (hf : s.fetch = some w) (hd : decode w = .hit i)
    (he : exec i s.beginStep = .next s.beginStep) :
    ∃ t, s.coreStep = .next t ∧ t.pc = s.pc + 4#32 ∧ SameRegs s t ∧ SameMemory s t ∧ t.raised = s.raised :=
  ⟨_, coreStep_hit hf hd he, State.retire_pc_next _ i hr (State.beginStep_redirect s), State.readReg_retire _ i,
    State.memRead1_retire _ i, State.retire_raised ..⟩

end

/-- Settles O23: each of the six forms branches on its condition, and the frame and the step of both outcomes follow
from that alone. -/
theorem branchesRedirectOnTheirCondition : Obligations.BranchesRedirectOnTheirCondition := by
  intro p hp
  have hbranch : BranchesOn p.1 p.2 := by
    revert p
    simp only [List.forall_mem_cons]
    exact ⟨beq_branchesOn, bne_branchesOn, blt_branchesOn, bge_branchesOn, bltu_branchesOn, bgeu_branchesOn,
      List.forall_mem_nil _⟩
  intro s rs1 rs2 off
  refine ⟨fun hc => ⟨⟨_, hbranch.taken s rs1 rs2 off hc, jumpsOnly_jump ..⟩, fun w hfree hf hd => ?taken⟩,
    fun hc => ⟨hbranch.notTaken s rs1 rs2 off hc, fun w hfree hf hd => ?notTaken⟩⟩
  case taken =>
    rw [step_free hfree]
    exact coreStep_jump hf hd (hbranch.taken s.beginStep rs1 rs2 off hc)
  case notTaken =>
    rw [step_free hfree]
    exact coreStep_nothing hfree.1 hf hd (hbranch.notTaken s.beginStep rs1 rs2 off hc)

end Sys2Proof.Machine
end

section
/-! PROOFS. 30_encoding.md: decoding and encoding undo each other (R83 to R100), the masks and matches (R100, R101),
the misses (R104) and the immediates (R85 to R93). -/

namespace Sys2Proof

/-! ## Decode of encode -/

/-- The word of an instruction has the dispatch key of its operation (30_encoding.md R98, R99), format by format. -/
theorem key_ofWord_encode (i : Instr) : (Fields.ofWord (encode i)).key = some i.op.key := by
  cases i with
  | lui | auipc => exact key_encodeU _ rfl ..
  | jal => exact key_encodeUJ _ rfl ..
  | beq | bne | blt | bge | bltu | bgeu => exact key_encodeSB _ rfl ..
  | sb | sh | sw => exact key_encodeS _ rfl ..
  | jalr | lb | lh | lw | lbu | lhu | addi | slti | sltiu | xori | ori | andi | fence => exact key_encodeI _ rfl ..
  | ecall | ebreak => exact key_encodeI_system _ rfl ..
  | slli | srli | srai | add | sub | sll | slt | sltu | xor | srl | sra | or | and => exact key_encodeR _ rfl ..

/-- The shift amount is the field of rs2 (30_encoding.md R95). -/
theorem shamt_eq_rs2 (w : Word) : bits (bits w 20 12) 0 5 = bits w 20 5 := by
  refine BitVec.eq_of_getLsbD_eq fun i hi => ?_
  have hi12 : i < 12 := by omega
  simp only [getLsbD_bits, hi, hi12, Nat.zero_add, decide_true, Bool.true_and]

/-- The operands of a well-formed instruction come back from the fields of its word, format by format. -/
theorem instr_ofWord_encode {i : Instr} (h : i.wellFormed = true) : (Fields.ofWord (encode i)).instr i.op = i := by
  cases i with
  | lui | auipc =>
    simp only [encode, Instr.op, Fields.instr, Fields.ofWord, encodeU_rd, encodeU_imm]
  | jal =>
    simp only [encode, Instr.op, Fields.instr, Fields.ofWord, encodeUJ_rd, encodeUJ_offset _ _ _ h]
  | beq | bne | blt | bge | bltu | bgeu =>
    simp only [encode, Instr.op, Fields.instr, Fields.ofWord, encodeSB_rs1, encodeSB_rs2, encodeSB_offset _ _ _ _ h]
  | sb | sh | sw =>
    simp only [encode, Instr.op, Fields.instr, encodeS_imm]
    simp only [Fields.ofWord, encodeS_rs1, encodeS_rs2]
  | jalr | lb | lh | lw | lbu | lhu | addi | slti | sltiu | xori | ori | andi | fence | ecall | ebreak =>
    simp only [encode, Instr.op, Fields.instr, Fields.ofWord, encodeI_rd, encodeI_rs1, encodeI_imm]
  | slli | srli | srai | add | sub | sll | slt | sltu | xor | srl | sra | or | and =>
    simp only [encode, Instr.op, Fields.instr, Fields.ofWord, shamt_eq_rs2, encodeR_rd, encodeR_rs1, encodeR_rs2]

/-- Settles O31: the word of an instruction has its operation's key, and its fields are the operands. -/
theorem decodeOfEncodeIsTheInstruction : Obligations.DecodeOfEncodeIsTheInstruction :=
  fun i hi => decode_eq_hit.mpr ⟨i.op, key_ofWord_encode i, instr_ofWord_encode hi⟩

/-! ## Encode of decode -/

theorem evenOffset_immBOf (w : Word) : evenOffset (immBOf w) = true := by
  rw [evenOffset, immBOf_getLsbD]; rfl

theorem evenOffset_immJOf (w : Word) : evenOffset (immJOf w) = true := by
  rw [evenOffset, immJOf_getLsbD]; rfl

/-- A decoded offset has no bit 0, whatever the word (30_encoding.md R91, R93). -/
theorem wellFormed_instr (w : Word) (o : Op) : ((Fields.ofWord w).instr o).wellFormed = true := by
  cases o with
  | jal => exact evenOffset_immJOf w
  | beq | bne | blt | bge | bltu | bgeu => exact evenOffset_immBOf w
  | _ => rfl

/-- A word with an entry's key is put together again from the operands the entry's format extracts. -/
theorem encode_instr {w : Word} {o : Op} (h : (Fields.ofWord w).key = some o.key) :
    encode ((Fields.ofWord w).instr o) = w := by
  obtain ⟨h0, h3, h7, h12⟩ := Fields.key_eq_some.mp h
  cases o with
  | lui | auipc => exact encodeU_fields _ w h0
  | jal => exact encodeUJ_fields _ w h0
  | beq | bne | blt | bge | bltu | bgeu => exact encodeSB_fields _ w h0 (h3 rfl)
  | sb | sh | sw => exact encodeS_fields _ w h0 (h3 rfl)
  | jalr | lb | lh | lw | lbu | lhu | addi | slti | sltiu | xori | ori | andi | fence =>
    exact encodeI_fields _ w h0 (h3 rfl)
  | ecall | ebreak =>
    simp only [Fields.instr, encode, ← h12 rfl]
    exact encodeI_fields _ w h0 (h3 rfl)
  | slli | srli | srai =>
    simp only [Fields.instr, encode, Fields.ofWord, shamt_eq_rs2]
    exact encodeR_fields _ w h0 (h3 rfl) (h7 rfl)
  | add | sub | sll | slt | sltu | xor | srl | sra | or | and => exact encodeR_fields _ w h0 (h3 rfl) (h7 rfl)

/-- Settles O32: a hit has an entry's key and the word's fields, from which the word is put together again. -/
theorem encodeOfDecodeIsTheWord : Obligations.EncodeOfDecodeIsTheWord := by
  intro w i h
  obtain ⟨o, hkey, rfl⟩ := decode_eq_hit.mp h
  exact ⟨wellFormed_instr w o, encode_instr hkey⟩

/-! ## Masks and matches -/

/-- The bits an entry's mask selects: the opcode and the fields the entry keeps (30_encoding.md R98, R100). -/
theorem maskWord_getLsbD (o : Op) : ∀ i < 32, o.maskWord.getLsbD i = true ↔
    i < 7 ∨ o.keeps.1 = true ∧ 12 ≤ i ∧ i < 15 ∨ o.keeps.2.1 = true ∧ 25 ≤ i ∨ o.keeps.2.2 = true ∧ 20 ≤ i := by
  cases o <;> decide

/-- The match of an entry lies inside its mask (30_encoding.md R100). -/
theorem matchWord_and_maskWord (o : Op) : o.matchWord &&& o.maskWord = o.matchWord := by cases o <;> rfl

/-- The match of an entry is a word with the entry's key (30_encoding.md R100). -/
theorem key_matchWord (o : Op) : (Fields.ofWord o.matchWord).key = some o.key := by cases o <;> rfl

/-- Two words have the same field exactly where they have the same bits there. -/
theorem bits_eq_bits_iff (v w : Word) (lo n : Nat) :
    bits v lo n = bits w lo n ↔ ∀ i, lo ≤ i → i < lo + n → v.getLsbD i = w.getLsbD i := by
  refine ⟨fun h i hlo hhi => ?_, fun h => BitVec.eq_of_getLsbD_eq fun i hi => ?_⟩
  · have hin : i - lo < n := by omega
    have hbit := congrArg (fun u => u.getLsbD (i - lo)) h
    simpa only [getLsbD_bits, hin, Nat.add_sub_cancel' hlo, decide_true, Bool.true_and] using hbit
  · rw [getLsbD_bits, getLsbD_bits, h (lo + i) (by omega) (by omega)]

/-- Two words are the same under a mask exactly where they have the same bits there. -/
theorem and_eq_and_iff (v w m : Word) :
    v &&& m = w &&& m ↔ ∀ i < 32, m.getLsbD i = true → v.getLsbD i = w.getLsbD i := by
  refine ⟨fun h i _ hm => ?_, fun h => word_ext fun i hi => ?_⟩
  · simpa only [BitVec.getLsbD_and, hm, Bool.and_true] using congrArg (fun u => u.getLsbD i) h
  · rw [BitVec.getLsbD_and, BitVec.getLsbD_and]
    cases hm : m.getLsbD i
    · rw [Bool.and_false, Bool.and_false]
    · rw [h i hi hm]

/-- Two words are the same under an entry's mask exactly where they agree on the fields the entry keeps. -/
theorem and_maskWord_eq_iff (v w : Word) (o : Op) :
    v &&& o.maskWord = w &&& o.maskWord ↔
      bits v 0 7 = bits w 0 7 ∧ (o.keeps.1 → bits v 12 3 = bits w 12 3) ∧
        (o.keeps.2.1 → bits v 25 7 = bits w 25 7) ∧ (o.keeps.2.2 → bits v 20 12 = bits w 20 12) := by
  simp only [and_eq_and_iff, bits_eq_bits_iff]
  constructor
  · intro h
    refine ⟨fun i _ hi => ?_, fun hk i hlo hi => ?_, fun hk i hlo hi => ?_, fun hk i hlo hi => ?_⟩ <;>
      refine h i (by omega) ((maskWord_getLsbD o i (by omega)).mpr ?_)
    · exact .inl (by omega)
    · exact .inr (.inl ⟨hk, hlo, hi⟩)
    · exact .inr (.inr (.inl ⟨hk, hlo⟩))
    · exact .inr (.inr (.inr ⟨hk, hlo⟩))
  · rintro ⟨h0, h3, h7, h12⟩ i hi hm
    obtain hlt | ⟨hk, hlo, hlt⟩ | ⟨hk, hlo⟩ | ⟨hk, hlo⟩ := (maskWord_getLsbD o i hi).mp hm
    · exact h0 i (by omega) hlt
    · exact h3 hk i hlo hlt
    · exact h7 hk i hlo hi
    · exact h12 hk i hlo hi

/-- A word matches an entry exactly when it has the entry's key (30_encoding.md R100). -/
theorem and_maskWord_eq_matchWord_iff (w : Word) (o : Op) :
    w &&& o.maskWord = o.matchWord ↔ (Fields.ofWord w).key = some o.key := by
  obtain ⟨h0, h3, h7, h12⟩ := Fields.key_eq_some.mp (key_matchWord o)
  rw [← matchWord_and_maskWord, and_maskWord_eq_iff, Fields.key_eq_some, ← h0]
  refine and_congr Iff.rfl (and_congr ?_ (and_congr ?_ ?_)) <;> refine imp_congr_right fun hk => ?_
  · rw [← h3 hk]; rfl
  · rw [← h7 hk]; rfl
  · rw [← h12 hk]; rfl

/-- No two entries share a key (30_encoding.md R101). -/
theorem Op.key_injective : Function.Injective Op.key := fun o o' h =>
  Option.some.inj ((dispatch_key o).symm.trans ((congrArg dispatch h).trans (dispatch_key o')))

/-- Settles O33: decoding to an operation and matching it are both having its key, and keys are not shared. -/
theorem decodeAgreesWithMaskAndMatch : Obligations.DecodeAgreesWithMaskAndMatch := by
  refine ⟨fun w o => ?agree, fun w o o' h h' => ?apart⟩
  case agree =>
    rw [and_maskWord_eq_matchWord_iff]
    constructor
    · rintro ⟨i, hi, rfl⟩
      obtain ⟨o, hkey, rfl⟩ := decode_eq_hit.mp hi
      rw [instr_op, hkey]
    · exact fun hkey => ⟨_, decode_eq_hit.mpr ⟨o, hkey, rfl⟩, instr_op _ o⟩
  case apart =>
    rw [and_maskWord_eq_matchWord_iff] at h h'
    exact Op.key_injective (Option.some.inj (h.symm.trans h'))

/-- Settles O34: a miss is a key that is no entry's, so a word that no row matches. -/
theorem missesRecordTheRawFields : Obligations.MissesRecordTheRawFields := by
  intro w info
  rw [decode_eq_notFound]
  exact and_congr (forall_congr' fun o => not_congr (and_maskWord_eq_matchWord_iff w o).symm) eq_comm

/-! ## Immediates -/

/-- The S immediate by shifts and masks (30_encoding.md R85). -/
theorem immS_setWidth (w : Word) :
    (Fields.ofWord w).immS.setWidth 32 = ((w >>> 25) <<< 5 ||| (w >>> 7 &&& 0x1F#32)) := by
  refine word_ext fun i hi => ?_
  rw [BitVec.getLsbD_setWidth, immS_getLsbD]
  interval_cases i <;> simp [-BitVec.getLsbD_eq_getElem]

/-- The SB immediate by shifts and masks (30_encoding.md R86, R91). -/
theorem immB_setWidth (w : Word) :
    (immBOf w).setWidth 32 =
      ((w >>> 31) <<< 12 ||| (w >>> 25 &&& 0x3F#32) <<< 5 ||| (w >>> 8 &&& 0xF#32) <<< 1
        ||| (w >>> 7 &&& 1#32) <<< 11) := by
  refine word_ext fun i hi => ?_
  rw [BitVec.getLsbD_setWidth, immBOf_getLsbD]
  interval_cases i <;> simp [-BitVec.getLsbD_eq_getElem]

/-- The UJ immediate by shifts and masks (30_encoding.md R88, R93). -/
theorem immJ_setWidth (w : Word) :
    (immJOf w).setWidth 32 =
      ((w >>> 31) <<< 20 ||| (w >>> 21 &&& 0x3FF#32) <<< 1 ||| (w >>> 20 &&& 1#32) <<< 11
        ||| (w >>> 12 &&& 0xFF#32) <<< 12) := by
  refine word_ext fun i hi => ?_
  rw [BitVec.getLsbD_setWidth, immJOf_getLsbD]
  interval_cases i <;> simp [-BitVec.getLsbD_eq_getElem]

/-- An offset whose bit 0 is zero is an even signed number. -/
theorem toInt_even_of_evenOffset {n : Nat} {v : BitVec (n + 1)} (h : evenOffset v = true) : v.toInt % 2 = 0 := by
  have hbit : v.toNat % 2 = 0 := by
    simpa [evenOffset, BitVec.getLsbD, Nat.testBit_zero] using h
  have hpow : 2 ^ (n + 1) = 2 * 2 ^ n := Nat.pow_succ'
  rw [BitVec.toInt_eq_toNat_cond]
  split <;> push_cast [hpow] <;> omega

/-- Settles O35: the formulas bit by bit, the ranges from the width and the zero bit 0. -/
theorem immediatesFollowTheSourceFormulas : Obligations.ImmediatesFollowTheSourceFormulas := by
  intro w
  have hB := toInt_even_of_evenOffset (evenOffset_immBOf w)
  have hJ := toInt_even_of_evenOffset (evenOffset_immJOf w)
  have hBlo := BitVec.le_toInt (immBOf w)
  have hBhi := BitVec.toInt_lt (x := immBOf w)
  have hJlo := BitVec.le_toInt (immJOf w)
  have hJhi := BitVec.toInt_lt (x := immJOf w)
  refine ⟨immS_setWidth w, immB_setWidth w, immJ_setWidth w, ⟨hBlo, ?_, hB⟩, ⟨hJlo, ?_, hJ⟩⟩
  · change (immBOf w).toInt ≤ 4094
    omega
  · change (immJOf w).toInt ≤ 1048574
    omega

/-- Settles O36: thirteen words, decoded. -/
theorem sampleWordsDecode : Obligations.SampleWordsDecode := by
  refine ⟨?_, ?_, ?_, ?_, ?_, ?_, ?_, ?_, ?_, ?_, ?_, ?_, ?_⟩ <;> decide

end Sys2Proof
end

section
/-! PROOFS. 20_memory.md section 1 (log 4): the canonical form of the memory's cells. -/

namespace Sys2Proof.Machine

/-- In a rising list nothing is listed below the bound. -/
theorem Memory.lookup_eq_none_of_lt {a : Nat} :
    ∀ {lo : Nat} {m : Memory}, m.risesFrom lo = true → a < lo → Memory.lookup a m = none
  | _, [], _, _ => rfl
  | lo, (b, w) :: m, hm, ha => by
    simp only [Memory.risesFrom, Bool.and_eq_true, decide_eq_true_eq] at hm
    obtain ⟨hb, hm⟩ := hm
    rw [Memory.lookup, if_neg (by omega), Memory.lookup_eq_none_of_lt hm (by omega)]

/-- Rising lists that list the same bytes are equal. -/
theorem Memory.ext_lookup : ∀ {lo : Nat} {m n : Memory}, m.risesFrom lo = true → n.risesFrom lo = true →
    (∀ a, Memory.lookup a m = Memory.lookup a n) → m = n
  | _, [], [], _, _, _ => rfl
  | _, [], (b, w) :: n, _, _, h => by simpa [Memory.lookup] using h b
  | _, (a, v) :: m, [], _, _, h => by simpa [Memory.lookup] using h a
  | _, (a, v) :: m, (b, w) :: n, hm, hn, h => by
    simp only [Memory.risesFrom, Bool.and_eq_true] at hm hn
    obtain ⟨-, hm⟩ := hm
    obtain ⟨-, hn⟩ := hn
    obtain hlt | rfl | hlt := Nat.lt_trichotomy a b
    · have ha := h a
      rw [Memory.lookup, Memory.lookup, if_pos rfl, if_neg (by omega),
        Memory.lookup_eq_none_of_lt hn (by omega)] at ha
      cases ha
    · have hv : v = w := by simpa [Memory.lookup] using h a
      have htail : ∀ x, Memory.lookup x m = Memory.lookup x n := fun x => by
        by_cases hx : x = a
        · rw [Memory.lookup_eq_none_of_lt hm (by omega), Memory.lookup_eq_none_of_lt hn (by omega)]
        · simpa [Memory.lookup, hx] using h x
      rw [hv, Memory.ext_lookup hm hn htail]
    · have hb := h b
      rw [Memory.lookup, Memory.lookup, if_pos rfl, if_neg (by omega),
        Memory.lookup_eq_none_of_lt hm (by omega)] at hb
      cases hb

/-- A listed byte is a cell of the list. -/
theorem Memory.mem_of_lookup {a : Nat} {v : Byte} : ∀ {m : Memory}, Memory.lookup a m = some v → (a, v) ∈ m
  | (b, w) :: m, h => by
    rw [Memory.lookup] at h
    split at h
    · next hab =>
      cases h
      exact hab ▸ List.mem_cons_self
    · exact List.mem_cons_of_mem _ (Memory.mem_of_lookup h)

section canonical
variable {c : Config} {m : Memory} (h : Memory.wf c m = true)
include h

theorem Memory.risesFrom_of_wf : m.risesFrom 0 = true := by
  simp only [Memory.wf, Bool.and_eq_true] at h
  exact h.1

/-- A byte listed in a memory in canonical form lies inside the capacity and differs from the fill. -/
theorem Memory.lookup_some_of_wf {a : Nat} {v : Byte} (hv : Memory.lookup a m = some v) :
    a < 4 * c.memWords ∧ v ≠ Memory.fillByte c.memFill a := by
  simp only [Memory.wf, Bool.and_eq_true, List.all_eq_true, decide_eq_true_eq] at h
  exact h.2 _ (Memory.mem_of_lookup hv)

/-- In canonical form, what is listed at an address inside the capacity is determined by the byte it reads. -/
theorem Memory.lookup_eq_of_wf (a : Nat) :
    Memory.lookup a m =
      if m.readByte c.memFill a = Memory.fillByte c.memFill a then none else some (m.readByte c.memFill a) := by
  rw [Memory.readByte]
  cases hv : Memory.lookup a m with
  | none => simp
  | some v => simp [(Memory.lookup_some_of_wf h hv).2]

/-- In canonical form nothing is listed past the capacity. -/
theorem Memory.lookup_eq_none_of_wf {a : Nat} (ha : 4 * c.memWords ≤ a) : Memory.lookup a m = none := by
  cases hv : Memory.lookup a m with
  | none => rfl
  | some v => exact absurd (Memory.lookup_some_of_wf h hv).1 (Nat.not_lt.mpr ha)

end canonical

/-- Settles O55: in canonical form the bytes read determine the cells listed, and those the list. -/
theorem canonicalMemoriesThatReadAlikeAreEqual : Obligations.CanonicalMemoriesThatReadAlikeAreEqual := by
  intro c m n hm hn hread
  refine Memory.ext_lookup (Memory.risesFrom_of_wf hm) (Memory.risesFrom_of_wf hn) fun a => ?_
  obtain ha | ha := Nat.lt_or_ge a (4 * c.memWords)
  · rw [Memory.lookup_eq_of_wf hm, Memory.lookup_eq_of_wf hn, hread a ha]
  · rw [Memory.lookup_eq_none_of_wf hm ha, Memory.lookup_eq_none_of_wf hn ha]

end Sys2Proof.Machine
end

section
/-! PROOFS. 70_reset_and_hazards.md section 1: power-on and the image (R250 to R253). -/

namespace Sys2Proof.Machine

/-! ## The image in memory -/

/-- A word no cell lists reads as the fill (20_memory.md R51). -/
theorem Memory.readWord_nil (fill : Word) (i : Nat) : Memory.readWord fill [] i = fill := by
  have h0 : 4 * i % 4 = 0 := by omega
  have h1 : (4 * i + 1) % 4 = 1 := by omega
  have h2 : (4 * i + 2) % 4 = 2 := by omega
  have h3 : (4 * i + 3) % 4 = 3 := by omega
  simp only [Memory.readWord, Memory.readByte, Memory.lookup, Option.getD_none, Memory.fillByte, h0, h1, h2, h3]
  exact wordOfBytes_byteLane fill

/-- Each word after an image is stored: the image's where it lies, the old one elsewhere
(70_reset_and_hazards.md R252). -/
theorem Memory.readWord_loadWords (fill : Word) (j : Nat) (ws : List Word) (m : Memory) (i : Nat) :
    (loadWords fill m i ws).readWord fill j =
      if i ≤ j ∧ j < i + ws.length then ws.getD (j - i) 0#32 else m.readWord fill j := by
  induction ws generalizing m i with
  | nil =>
    rw [if_neg (by simp only [List.length_nil]; omega)]
    rfl
  | cons w ws ih =>
    rw [loadWords, ih, Memory.readWord_writeWord]
    simp only [List.length_cons]
    obtain hlt | rfl | hlt := Nat.lt_trichotomy j i
    · rw [if_neg (by omega), if_neg (by omega), if_neg (by omega)]
    · rw [if_neg (by omega), if_pos rfl, if_pos (by omega), Nat.sub_self]
      rfl
    · have hsub : j - i = j - (i + 1) + 1 := by omega
      rw [if_neg (show j ≠ i by omega), hsub, List.getD_cons_succ]
      exact if_congr (by omega) rfl rfl

/-- Storing an image inside the capacity keeps the canonical form. -/
theorem Memory.wf_loadWords {c : Config} (ws : List Word) {m : Memory} {i : Nat} (h : Memory.wf c m = true)
    (hfit : i + ws.length ≤ c.memWords) : Memory.wf c (loadWords c.memFill m i ws) = true := by
  induction ws generalizing m i with
  | nil => exact h
  | cons w ws ih =>
    rw [List.length_cons] at hfit
    exact ih (Memory.wf_writeWord h i w (by omega)) (by omega)

/-! ## Power-on -/

theorem Config.valid_iff (c : Config) :
    c.valid = true ↔
      1 ≤ c.memWords ∧ c.memWords ≤ 2 ^ 30 ∧ c.startAddr.toNat % 4 = 0 ∧ c.startAddr.toNat / 4 < c.memWords := by
  simp only [Config.valid, Bool.and_eq_true, decide_eq_true_eq, and_assoc]

theorem Config.imageFits_iff (c : Config) :
    c.imageFits = true ↔ wordIndex c.startAddr + c.image.length ≤ c.memWords := decide_eq_true_iff

/-- Power-on with an accepted configuration (70_reset_and_hazards.md R250). -/
theorem powerOn_accepted {c : Config} (hv : c.valid = true) (hf : c.imageFits = true) :
    powerOn c = .next (bootState c) := by
  simp [powerOn, hv, hf]

/-- The word at an address after power-on (70_reset_and_hazards.md R252). -/
theorem readWord_bootState (c : Config) {a : Word} (ha : wordIndex a < c.memWords) :
    (bootState c).readWord a =
      if wordIndex c.startAddr ≤ wordIndex a ∧ wordIndex a < wordIndex c.startAddr + c.image.length then
        c.image.getD (wordIndex a - wordIndex c.startAddr) 0#32
      else c.memFill := by
  rw [State.readWord_of_lt ha]
  exact (Memory.readWord_loadWords c.memFill _ c.image [] _).trans (by rw [Memory.readWord_nil])

/-- Settles O56: the registers are a filled file, the memory a stored image over the fill. -/
theorem powerOnLeavesTheConfiguredState : Obligations.PowerOnLeavesTheConfiguredState := by
  intro c hv hf
  refine ⟨bootState c, powerOn_accepted hv hf, State.readReg_zero _, fun r hr => ?_, rfl, rfl, rfl, rfl, rfl, rfl,
    fun a ha => readWord_bootState c ha⟩
  rw [readReg_filledRegs (s := bootState c) rfl, if_neg hr]

/-- Settles O57: the two checks of power-on, in their order. -/
theorem powerOnRefusesWhatHasNoRun : Obligations.PowerOnRefusesWhatHasNoRun := by
  intro c
  rw [← Config.valid_iff]
  refine ⟨fun hv => ?range, fun hv hlong => ?image⟩
  case range => rw [powerOn, if_pos (Bool.eq_false_iff.mpr hv)]
  case image =>
    have hfit : c.imageFits = false :=
      Bool.eq_false_iff.mpr fun h => Nat.not_le.mpr hlong ((Config.imageFits_iff c).mp h)
    rw [powerOn, if_neg (by simp [hv]), if_pos hfit]

/-! ## Image files -/

/-- Four bytes of a file are one word of the image (70_reset_and_hazards.md R252). -/
theorem imageOfFile_cons (b0 b1 b2 b3 : Byte) (rest : List Byte) :
    imageOfFile (b0 :: b1 :: b2 :: b3 :: rest) = (imageOfFile rest).map (wordOfBytes b0 b1 b2 b3 :: ·) := by
  rw [imageOfFile]
  cases imageOfFile rest <;> rfl

/-- The first four bytes of a file are the lanes of the word they make (20_memory.md R54). -/
theorem getElem?_eq_byteLane_wordOfBytes (b0 b1 b2 b3 : Byte) (rest : List Byte) {k : Nat} (hk : k < 4) :
    (b0 :: b1 :: b2 :: b3 :: rest)[k]? = some (byteLane (wordOfBytes b0 b1 b2 b3) k) := by
  obtain ⟨h0, h1, h2, h3⟩ := byteLane_wordOfBytes b0 b1 b2 b3
  interval_cases k
  · rw [h0]; rfl
  · rw [h1]; rfl
  · rw [h2]; rfl
  · rw [h3]; rfl

/-- A file of whole words gives its little-endian words (70_reset_and_hazards.md R252). -/
theorem imageOfFile_words : ∀ {file : List Byte}, file.length % 4 = 0 →
    ∃ ws : List Word, imageOfFile file = .ok ws ∧ 4 * ws.length = file.length ∧
      ∀ i k, i < ws.length → k < 4 → file[4 * i + k]? = (ws[i]?).map fun w => byteLane w k
  | [], _ => ⟨[], rfl, rfl, fun i _ hi => absurd hi (Nat.not_lt_zero i)⟩
  | [_], h | [_, _], h | [_, _, _], h => absurd h (by simp)
  | b0 :: b1 :: b2 :: b3 :: rest, h => by
    simp only [List.length_cons] at h
    obtain ⟨ws, hws, hlen, hbytes⟩ := imageOfFile_words (file := rest) (by omega)
    refine ⟨wordOfBytes b0 b1 b2 b3 :: ws, by rw [imageOfFile_cons, hws]; rfl, by simp only [List.length_cons]; omega, ?_⟩
    intro i k hi hk
    cases i with
    | zero => rw [Nat.mul_zero, Nat.zero_add, getElem?_eq_byteLane_wordOfBytes _ _ _ _ _ hk]; rfl
    | succ i =>
      rw [show 4 * (i + 1) + k = 4 * i + k + 4 by omega]
      exact hbytes i k (Nat.lt_of_succ_lt_succ hi) hk

/-- A file that ends inside a word is refused (93_implementation_defined.md item 13). -/
theorem imageOfFile_partialWord : ∀ {file : List Byte}, file.length % 4 ≠ 0 → imageOfFile file = .error .imageFileLength
  | [], h => absurd rfl h
  | [_], _ | [_, _], _ | [_, _, _], _ => rfl
  | b0 :: b1 :: b2 :: b3 :: rest, h => by
    simp only [List.length_cons] at h
    rw [imageOfFile_cons, imageOfFile_partialWord (file := rest) (by omega)]
    rfl

/-- Settles O58: by recursion over the file, four bytes at a time. -/
theorem imageFileIsLittleEndianWords : Obligations.ImageFileIsLittleEndianWords :=
  fun _ => ⟨imageOfFile_words, imageOfFile_partialWord⟩

end Sys2Proof.Machine
end

section
/-! PROOFS. The invariant of a run (10_state.md sections 1, 3 and 6, 60_exceptions.md section 1). -/

namespace Sys2Proof.Machine

/-! ## The start of a run -/

theorem runInvariant_reset : RunInvariant State.reset where
  config := by decide
  memory := rfl
  slotZero := rfl
  redirect := rfl
  missLimit := fun _ h => h
  outOfBounds := nofun
  ecall := nofun
  missHalt := nofun
  exit := nofun

theorem runInvariant_bootState {c : Config} (hv : c.valid = true) (hf : c.imageFits = true) :
    RunInvariant (bootState c) where
  config := hv
  memory := Memory.wf_loadWords c.image (Memory.wf_nil c) ((Config.imageFits_iff c).mp hf)
  slotZero := filledRegs_slotZero c.regFill
  redirect := rfl
  missLimit := fun _ h => h
  outOfBounds := nofun
  ecall := nofun
  missHalt := nofun
  exit := nofun

/-- Settles O60: reset and every accepted power-on leave a running core with no miss and an image inside the
capacity. -/
theorem everyStartMeetsTheRunInvariant : Obligations.EveryStartMeetsTheRunInvariant := by
  refine ⟨runInvariant_reset, fun c s h => ?_⟩
  obtain ⟨hv, hf, rfl⟩ := powerOn_cases h
  exact runInvariant_bootState hv hf

/-! ## What an instruction keeps of it -/

/-- An instruction keeps memory in canonical form (log 4). -/
theorem exec_wf {i : Instr} {s t : State} (h : exec i s = .next t) (hwf : Memory.wf s.cfg s.mem = true) :
    Memory.wf t.cfg t.mem = true := by
  cases exec_effect h with
  | nothing | redirect | halts | toggles => exact hwf
  | register | link => simpa using hwf
  | store a w => exact State.writeWord_wf hwf a w

/-- No instruction writes slot 0 of the register file (10_state.md R21). -/
theorem exec_slotZero {i : Instr} {s t : State} (h : exec i s = .next t) : t.regs[0] = s.regs[0] := by
  cases exec_effect h with
  | nothing | redirect | halts | toggles => rfl
  | register | link | store => simp

/-! ## The invariant of a running and of a halted state -/

/-- The clauses of the invariant that hold in every run state. -/
structure RunFrame (s : State) : Prop where
  config : s.cfg.valid = true
  memory : Memory.wf s.cfg s.mem = true
  slotZero : s.regs[0] = 0#32
  redirect : s.redirect = false

/-- The rule that lets each halt reason arise (10_state.md R26). -/
def HaltJustified (s : State) : HaltReason → Prop
  | .outOfBoundsFetch => s.cfg.memWords ≤ wordIndex s.pc
  | .ecall => s.cfg.ecallAction = .halt
  | .missLimit => 0 < s.cfg.missHaltLimit ∧ s.cfg.missHaltLimit ≤ s.missCount
  | .exit => s.stepMode = true

/-- A running core meets the invariant where it has not reached its miss limit. -/
theorem runInvariant_running {s : State} (h : RunFrame s) (hr : s.runState = .running)
    (hmiss : 0 < s.cfg.missHaltLimit → s.missCount < s.cfg.missHaltLimit) : RunInvariant s where
  config := h.config
  memory := h.memory
  slotZero := h.slotZero
  redirect := h.redirect
  missLimit := fun _ => hmiss
  outOfBounds := by simp [hr]
  ecall := by simp [hr]
  missHalt := by simp [hr]
  exit := by simp [hr]

/-- A halted core meets the invariant where the rule of its reason holds. -/
theorem runInvariant_halted {s : State} {r : HaltReason} (h : RunFrame s) (hr : s.runState = .halted r)
    (hwhy : HaltJustified s r) : RunInvariant s where
  config := h.config
  memory := h.memory
  slotZero := h.slotZero
  redirect := h.redirect
  missLimit := by simp [hr]
  outOfBounds := fun e => by obtain rfl := RunState.halted.inj (hr.symm.trans e); exact hwhy
  ecall := fun e => by obtain rfl := RunState.halted.inj (hr.symm.trans e); exact hwhy
  missHalt := fun e => by obtain rfl := RunState.halted.inj (hr.symm.trans e); exact hwhy
  exit := fun e => by obtain rfl := RunState.halted.inj (hr.symm.trans e); exact hwhy

/-! ## The ways a step can end -/

section steps
variable {s : State} (h : RunInvariant s)
include h

/-- The host's queue has no part in the invariant. -/
theorem runInvariant_withQueue (q : List HostCommand) : RunInvariant { s with hostQueue := q } :=
  ⟨h.config, h.memory, h.slotZero, h.redirect, h.missLimit, h.outOfBounds, h.ecall, h.missHalt, h.exit⟩

/-- What a miss leaves meets the invariant: it halts exactly at the limit (60_exceptions.md R222). -/
theorem runInvariant_miss (hr : s.runState = .running) (info : MissInfo) : RunInvariant (s.beginStep.miss info) := by
  have hframe : RunFrame (s.beginStep.miss info) :=
    ⟨by simpa using h.config, by simpa using h.memory, by simpa using h.slotZero, by simp⟩
  have hrun := State.miss_runState s.beginStep info
  split at hrun
  case isTrue hlim => exact runInvariant_halted hframe hrun (by simpa [HaltJustified] using hlim)
  case isFalse hlim =>
    refine runInvariant_running hframe (hrun.trans hr) ?_
    simpa using hlim

/-- What an executed instruction leaves meets the invariant: it halts only as an ECALL under `HALT`
(10_state.md R30). -/
theorem runInvariant_retire (hr : s.runState = .running) {i : Instr} {u : State}
    (he : exec i s.beginStep = .next u) : RunInvariant (u.retire i) := by
  have hcfg : (u.retire i).cfg = s.cfg := (State.retire_cfg u i).trans (exec_keepsOutputs he).cfg
  have hwf := exec_wf he h.memory
  have hframe : RunFrame (u.retire i) :=
    ⟨hcfg ▸ h.config, by simpa using hwf, by simpa using (exec_slotZero he).trans h.slotZero, by simp⟩
  have hrun := State.retire_runState u i
  obtain hsame | ⟨-, ha, rfl⟩ := exec_runState he
  · exact runInvariant_running hframe (hrun.trans (hsame.trans hr)) fun hpos => by simpa using hpos
  · exact runInvariant_halted hframe hrun (by rw [HaltJustified, hcfg]; exact ha)

/-- The core's own step keeps the invariant (10_state.md R30). -/
theorem coreStep_keepsRunInvariant (hr : s.runState = .running) {t : State} (ht : s.coreStep = .next t) :
    RunInvariant t := by
  obtain ⟨hf, rfl⟩ | ⟨w, info, -, -, rfl⟩ | ⟨w, i, u, -, -, he, rfl⟩ := coreStep_cases ht
  · exact runInvariant_halted ⟨h.config, h.memory, h.slotZero, h.redirect⟩ rfl (fetch_eq_none_iff.mp hf)
  · exact runInvariant_miss h hr info
  · exact runInvariant_retire h hr he

/-- Each command of the host keeps the invariant of a suspended core (60_exceptions.md R233 to R237). -/
theorem command_keepsRunInvariant (hr : s.runState = .running) (hm : s.stepMode = true) {c : HostCommand} {t : State}
    (ht : s.command c = .next t) : RunInvariant t := by
  have hlimit := h.missLimit hr
  cases c with
  | step => exact coreStep_keepsRunInvariant h hr ht
  | reset =>
    cases ht
    exact runInvariant_running ⟨h.config, h.memory, filledRegs_slotZero _, h.redirect⟩ hr id
  | exit =>
    cases ht
    exact runInvariant_halted ⟨h.config, h.memory, h.slotZero, h.redirect⟩ rfl hm
  | _ =>
    cases ht
    exact runInvariant_running ⟨h.config, h.memory, h.slotZero, h.redirect⟩ hr hlimit

end steps

/-- Settles O59: a halted core stays as it is, a free one takes its own step, a suspended one the host's command. -/
theorem stepKeepsTheRunInvariant : Obligations.StepKeepsTheRunInvariant := by
  intro s t h ht
  obtain ⟨r, -, rfl⟩ | ⟨hfree, hcore⟩ | ⟨c, q, hr, hm, -, hcmd⟩ := step_cases ht
  · exact h
  · exact coreStep_keepsRunInvariant h hfree.1 hcore
  · exact command_keepsRunInvariant (runInvariant_withQueue h q) hr hm hcmd

end Sys2Proof.Machine
end

section
/-! PROOFS. 43_load_store.md and 20_memory.md sections 2, 3 and 5: the loads and the stores (R160 to R168, R54 to R69). -/

namespace Sys2Proof.Machine

/-! ## What `exec` answers -/

section exec
variable (s : State) (rd rs1 rs2 : RegIdx) (imm : BitVec 12)

theorem exec_lb : exec (.lb rd rs1 imm) s = .next (s.writeReg rd (sext (s.memRead1 (s.ea rs1 imm)))) := rfl

theorem exec_lbu : exec (.lbu rd rs1 imm) s = .next (s.writeReg rd (zext (s.memRead1 (s.ea rs1 imm)))) := rfl

theorem exec_lw : exec (.lw rd rs1 imm) s = .next (s.writeReg rd (s.readWord (s.ea rs1 imm))) := rfl

theorem exec_lh : exec (.lh rd rs1 imm) s = loadHalf sext rd rs1 imm s := rfl

theorem exec_lhu : exec (.lhu rd rs1 imm) s = loadHalf zext rd rs1 imm s := rfl

theorem exec_sb : exec (.sb rs2 rs1 imm) s = .next (s.memWrite1 (s.ea rs1 imm) (s.readReg rs2)) := rfl

/-- The halfword LH and LHU extend: two bytes of one word (20_memory.md R56). -/
def halfwordAt (s : State) (a : Word) : Half := (if lane a = 3 then 0#8 else s.memRead1 (a + 1#32)) ++ s.memRead1 a

variable {s rs1 imm}

/-- A halfword load that has a step writes the extended halfword (43_load_store.md R162, R165). -/
theorem loadHalf_next (h : ¬ HalfwordStuck s (s.ea rs1 imm)) (f : Half → Word) :
    loadHalf f rd rs1 imm s = .next (s.writeReg rd (f (halfwordAt s (s.ea rs1 imm)))) := by
  rw [loadHalf, memRead2_ok h]
  rfl

theorem loadHalf_stuck (h : HalfwordStuck s (s.ea rs1 imm)) (f : Half → Word) :
    loadHalf f rd rs1 imm s = .fault .halfwordStuck := by
  rw [loadHalf, memRead2_stuck h]

/-- SH runs exactly the halfword store (43_load_store.md R167). -/
theorem exec_sh_next {t : State} (h : s.memWrite2 (s.ea rs1 imm) (s.readReg rs2) = .ok t) :
    exec (.sh rs2 rs1 imm) s = .next t := by
  rw [exec, execSh, h]

theorem exec_sh_stuck (h : HalfwordStuck s (s.ea rs1 imm)) : exec (.sh rs2 rs1 imm) s = .fault .halfwordStuck := by
  rw [exec, execSh, memWrite2_stuck h]

/-- Where SH answers a next state, the halfword store did. -/
theorem memWrite2_of_exec_sh {t : State} (h : exec (.sh rs2 rs1 imm) s = .next t) :
    s.memWrite2 (s.ea rs1 imm) (s.readReg rs2) = .ok t := by
  rw [exec, execSh] at h
  split at h
  · next hw => cases h; exact hw
  · cases h

end exec

/-! ## Loads -/

/-- Settles O14: both extensions keep the byte's value. -/
theorem byteLoadsExtendTheByte : Obligations.ByteLoadsExtendTheByte :=
  fun s rd rs1 imm =>
    ⟨⟨_, _, exec_lb s rd rs1 imm, setsOnlyRegister_writeReg .., sext_toInt _ (by decide)⟩,
      ⟨_, _, exec_lbu s rd rs1 imm, setsOnlyRegister_writeReg .., zext_toNat _ (by decide)⟩⟩

/-- Settles O15: a halfword load that has a step, its value kept by both extensions. -/
theorem halfwordLoadsExtendTwoBytesOfOneWord : Obligations.HalfwordLoadsExtendTwoBytesOfOneWord :=
  fun _ rd _ _ h =>
    ⟨⟨_, _, loadHalf_next rd h sext, setsOnlyRegister_writeReg .., sext_toInt _ (by decide)⟩,
      ⟨_, _, loadHalf_next rd h zext, setsOnlyRegister_writeReg .., zext_toNat _ (by decide)⟩⟩

/-- Settles O16: LW gives the word read, whose lanes are the bytes of that word. -/
theorem wordLoadIsWholeAndUnrotated : Obligations.WordLoadIsWholeAndUnrotated :=
  fun s rd rs1 imm =>
    ⟨_, _, exec_lw s rd rs1 imm, setsOnlyRegister_writeReg .., fun _ hb => State.byteLane_readWord s hb⟩

/-- Settles O20: the stuck read and the stuck write. -/
theorem halfwordAtOffsetThreeIsStuck : Obligations.HalfwordAtOffsetThreeIsStuck :=
  fun _ r _ _ h => ⟨loadHalf_stuck r h sext, loadHalf_stuck r h zext, exec_sh_stuck r h⟩

/-! ## Stores -/

/-- Settles O17: the byte store, byte by byte. -/
theorem byteStoreChangesOneByte : Obligations.ByteStoreChangesOneByte :=
  fun s rs2 rs1 imm =>
    ⟨_, exec_sb s rs1 rs2 imm, setsOnlyMemory_writeWord s _ _ _ (State.memRead1_memWrite1 s _ _)⟩

/-- An address's own place in its word. -/
theorem same_place_iff {a b : Word} : wordIndex b = wordIndex a ∧ lane b = lane a ↔ b = a :=
  ⟨fun h => address_ext h.1 h.2, fun h => h ▸ ⟨rfl, rfl⟩⟩

/-- The next place of an address's word, where the word has one. -/
theorem next_place_iff {a b : Word} :
    wordIndex b = wordIndex a ∧ lane b = lane a + 1 ↔ lane a ≠ 3 ∧ b = a + 1#32 := by
  constructor
  · rintro ⟨hi, hl⟩
    have h3 : lane a ≠ 3 := by have := lane_lt b; omega
    obtain ⟨hi', hl'⟩ := next_in_word h3
    exact ⟨h3, address_ext (hi.trans hi'.symm) (hl.trans hl'.symm)⟩
  · rintro ⟨h3, rfl⟩
    exact next_in_word h3

/-- Settles O18: a halfword store that has a step, its two places in the word named by their addresses. -/
theorem halfwordStoreStaysInItsWord : Obligations.HalfwordStoreStaysInItsWord := by
  intro s rs2 rs1 imm h
  obtain ⟨t, ht⟩ := memWrite2_ok h (s.readReg rs2)
  have hbytes := State.memRead1_memWrite2 ht
  simp only [same_place_iff, next_place_iff] at hbytes
  obtain ⟨w, rfl⟩ := State.memWrite2_writes ht
  exact ⟨_, exec_sh_next rs2 ht, setsOnlyMemory_writeWord s _ _ _ hbytes⟩

/-! ## The effective address and the frame of an access -/

/-- The effective address is a signed sum modulo 2^32 (43_load_store.md R160). -/
theorem ea_toInt (s : State) (rs1 : RegIdx) (imm : BitVec 12) :
    (s.ea rs1 imm).toInt = ((s.readReg rs1).toInt + imm.toInt).bmod (2 ^ 32) := by
  rw [State.ea, BitVec.toInt_add, sext_toInt _ (by decide)]

/-- A load writes one register, with 0 where the address is out of range. -/
def LoadsARegister (c : RegIdx → RegIdx → BitVec 12 → Instr) : Prop :=
  ∀ (s t : State) (rd rs1 : RegIdx) (imm : BitVec 12), exec (c rd rs1 imm) s = .next t →
    ∃ v, t = s.writeReg rd v ∧ (s.inRange (s.ea rs1 imm) = false → v = 0#32)

/-- A store writes one word or nothing. -/
def StoresAWord (c : RegIdx → RegIdx → BitVec 12 → Instr) : Prop :=
  ∀ (s t : State) (rs2 rs1 : RegIdx) (imm : BitVec 12), exec (c rs2 rs1 imm) s = .next t →
    ∃ w, t = s.writeWord (s.ea rs1 imm) w

/-- Out of range a halfword reads 0, at every offset (20_memory.md R56, log 8). -/
theorem memRead2_outOfRange {s : State} {a : Word} (h : s.inRange a = false) : s.memRead2 a = .ok 0#16 := by
  simp [State.memRead2, State.readWord, h]

theorem lb_loads : LoadsARegister .lb := by
  rintro s t rd rs1 imm ⟨⟩
  exact ⟨_, rfl, fun h => by rw [State.memRead1_outOfRange h]; rfl⟩

theorem lbu_loads : LoadsARegister .lbu := by
  rintro s t rd rs1 imm ⟨⟩
  exact ⟨_, rfl, fun h => by rw [State.memRead1_outOfRange h]; rfl⟩

theorem lw_loads : LoadsARegister .lw := by
  rintro s t rd rs1 imm ⟨⟩
  exact ⟨_, rfl, fun h => if_neg (Bool.eq_false_iff.mp h)⟩

/-- A halfword load writes its extension of the halfword read, which is 0 out of range. -/
theorem loadHalf_loads {f : Half → Word} (hf : f 0#16 = 0#32) {s t : State} {rd rs1 : RegIdx} {imm : BitVec 12}
    (h : loadHalf f rd rs1 imm s = .next t) :
    ∃ v, t = s.writeReg rd v ∧ (s.inRange (s.ea rs1 imm) = false → v = 0#32) := by
  unfold loadHalf at h
  split at h
  · next v hv =>
    cases h
    refine ⟨f v, rfl, fun hout => ?_⟩
    rw [memRead2_outOfRange hout] at hv
    cases hv
    exact hf
  · cases h

theorem lh_loads : LoadsARegister .lh := fun _ _ _ _ _ h => loadHalf_loads rfl h

theorem lhu_loads : LoadsARegister .lhu := fun _ _ _ _ _ h => loadHalf_loads rfl h

theorem sb_stores : StoresAWord .sb := by
  rintro s t rs2 rs1 imm ⟨⟩
  exact ⟨_, rfl⟩

theorem sh_stores : StoresAWord .sh := fun _ _ _ _ _ h => State.memWrite2_writes (memWrite2_of_exec_sh _ h)

theorem sw_stores : StoresAWord .sw := by
  rintro s t rs2 rs1 imm ⟨⟩
  exact ⟨_, rfl⟩

/-- Where the core's own step answers a next state at an instruction, it is the executed instruction retired. -/
theorem coreStep_hit_inv {s t : State} {w : Word} {i : Instr} (hf : s.fetch = some w) (hd : decode w = .hit i)
    (h : s.coreStep = .next t) : ∃ u, exec i s.beginStep = .next u ∧ t = u.retire i := by
  obtain ⟨hn, -⟩ | ⟨w', info, hf', hd', -⟩ | ⟨w', i', u, hf', hd', he, rfl⟩ := coreStep_cases h
  · rw [hf] at hn; cases hn
  · obtain rfl := Option.some.inj (hf.symm.trans hf')
    rw [hd] at hd'; cases hd'
  · obtain rfl := Option.some.inj (hf.symm.trans hf')
    obtain rfl := Decoded.hit.inj (hd.symm.trans hd')
    exact ⟨u, he, rfl⟩

/-- The core's own step at an instruction that neither transfers control nor is an ECALL leaves `pc + 4` and raises
nothing (10_state.md R32). -/
theorem coreStep_sequential {s t : State} {w : Word} {i : Instr} (hr : s.runState = .running)
    (hf : s.fetch = some w) (hd : decode w = .hit i) (hct : i.isControlTransfer = false)
    (hecall : ∀ rd rs1, i ≠ .ecall rd rs1) (h : s.coreStep = .next t) :
    t.pc = s.pc + 4#32 ∧ t.raised = s.raised := by
  obtain ⟨u, he, rfl⟩ := coreStep_hit_inv hf hd h
  refine ⟨?pc, (State.retire_raised u i).trans (exec_keepsOutputs he).raised⟩
  case pc =>
    obtain hsame | ⟨hjump, -⟩ := exec_samePc_or_redirects he
    · obtain hrun | ⟨⟨rd, rs1, hi⟩, -⟩ := exec_runState he
      · rw [State.retire_pc_next u i (hrun.trans hr) hsame.redirect, hsame.pc, State.beginStep_pc]
      · exact absurd hi (hecall rd rs1)
    · rw [hct] at hjump; cases hjump

/-- Settles O13: the loads write one register, the stores one word, and neither moves `pc`. -/
theorem loadsAndStoresUseBaseDisplacement : Obligations.LoadsAndStoresUseBaseDisplacement := by
  refine ⟨ea_toInt, fun c hc s t rd rs1 imm h => ?loads, fun c hc s t rs2 rs1 imm h => ?stores,
    fun c s t a b imm w hc hfree hf hd h => ?step⟩
  case loads =>
    have hload : LoadsARegister c := by
      revert c
      simp only [List.forall_mem_cons]
      exact ⟨fun _ => lb_loads, fun _ => lh_loads, fun _ => lw_loads, fun _ => lbu_loads, fun _ => lhu_loads, nofun⟩
    obtain ⟨v, rfl, hout⟩ := hload s t rd rs1 imm h
    have hset := setsOnlyRegister_writeReg s rd v
    refine ⟨hset.others, hset.pc, hset.memory, hset.control, fun hrange => ?_⟩
    rw [State.readReg_writeReg_self, hout hrange, ite_self]
  case stores =>
    have hstore : StoresAWord c := by
      revert c
      simp only [List.forall_mem_cons]
      exact ⟨fun _ => sb_stores, fun _ => sh_stores, fun _ => sw_stores, nofun⟩
    obtain ⟨v, rfl⟩ := hstore s t rs2 rs1 imm h
    have hset := setsOnlyMemory_writeWord s (s.ea rs1 imm) v _ (State.memRead1_writeWord s _ v)
    refine ⟨hset.regs, hset.pc, hset.control, fun b hb => ?_, fun hrange => State.writeWord_outOfRange hrange v⟩
    rw [hset.memory b, if_neg fun e => hb e.2]
  case step =>
    rw [step_free hfree] at h
    have hplain : (c a b imm).isControlTransfer = false ∧ ∀ rd rs1, c a b imm ≠ .ecall rd rs1 := by
      clear hd
      revert c
      simp only [List.forall_mem_cons]
      refine ⟨?_, ?_, ?_, ?_, ?_, ?_, ?_, ?_, nofun⟩ <;> exact ⟨rfl, nofun⟩
    exact coreStep_sequential hfree.1 hf hd hplain.1 hplain.2 h

/-! ## A load after a store -/

/-- The addresses of an aligned word (20_memory.md R51). -/
theorem offset_in_word {a : Word} (ha : lane a = 0) {k : Nat} (hk : k < 4) :
    wordIndex (a + BitVec.ofNat 32 k) = wordIndex a ∧ lane (a + BitVec.ofNat 32 k) = k := by
  have hx := a.isLt
  have e : (a + BitVec.ofNat 32 k).toNat = a.toNat + k := by
    rw [BitVec.toNat_add, BitVec.toNat_ofNat]
    unfold lane at ha
    omega
  unfold wordIndex lane at *
  omega

/-- Two neighbouring byte lanes are sixteen bits (20_memory.md R54). -/
theorem bits_append_bits (v : Word) (lo : Nat) : bits v (lo + 8) 8 ++ bits v lo 8 = bits v lo 16 := by
  refine BitVec.eq_of_getLsbD_eq fun i hi => ?_
  rw [BitVec.getLsbD_append]
  simp only [getLsbD_bits, hi, decide_true, Bool.true_and]
  split
  case isTrue h8 => rw [decide_eq_true h8, Bool.true_and]
  case isFalse h8 =>
    rw [decide_eq_true (by omega), Bool.true_and]
    congr 1
    omega

/-- A halfword inside a word has a step and gives its two bytes (20_memory.md R56). -/
theorem memRead2_of_lane {s : State} {a : Word} (h : lane a ≠ 3) :
    s.memRead2 a = .ok (s.memRead1 (a + 1#32) ++ s.memRead1 a) := by
  rw [memRead2_ok fun hs => h hs.2.1, if_neg h]

/-- The byte lanes of an aligned word written, at their addresses (20_memory.md R54). -/
theorem memRead1_memWrite4 {s : State} {a : Word} (h : s.inRange a = true) (ha : lane a = 0) (v : Word) {k : Nat}
    (hk : k < 4) : (s.memWrite4 a v).memRead1 (a + BitVec.ofNat 32 k) = bits v (8 * k) 8 := by
  obtain ⟨hi, hl⟩ := offset_in_word ha hk
  rw [State.memWrite4, State.memRead1_writeWord, if_pos ⟨h, hi⟩, hl, byteLane]

/-- The two halves of an aligned word written, at their addresses (20_memory.md R54). -/
theorem memRead2_memWrite4 {s : State} {a : Word} (h : s.inRange a = true) (ha : lane a = 0) (v : Word) {k : Nat}
    (hk : k + 1 < 4) : (s.memWrite4 a v).memRead2 (a + BitVec.ofNat 32 k) = .ok (bits v (8 * k) 16) := by
  have hlane : lane (a + BitVec.ofNat 32 k) ≠ 3 := by
    rw [(offset_in_word ha (by omega)).2]
    omega
  have hnext : a + BitVec.ofNat 32 k + 1#32 = a + BitVec.ofNat 32 (k + 1) := by
    rw [BitVec.add_assoc, BitVec.ofNat_add]
  rw [memRead2_of_lane hlane, hnext, memRead1_memWrite4 h ha v hk, memRead1_memWrite4 h ha v (by omega),
    Nat.mul_succ, bits_append_bits]

/-- A store leaves the effective address as it was: it writes no register. -/
theorem ea_after_store {c : RegIdx → RegIdx → BitVec 12 → Instr} (hc : StoresAWord c) {s t : State} {rs2 rs1 : RegIdx}
    {imm : BitVec 12} (h : exec (c rs2 rs1 imm) s = .next t) : t.ea rs1 imm = s.ea rs1 imm := by
  obtain ⟨w, rfl⟩ := hc _ _ _ _ _ h
  rw [State.ea, State.ea, State.readReg_writeWord]

/-- The low bits of a word are its value modulo a power of 2. -/
theorem bits_zero_toNat (v : Word) (n : Nat) : (bits v 0 n).toNat = v.toNat % 2 ^ n := by
  simp [bits, BitVec.extractLsb'_toNat]

section
variable {s t u : State} {rs2 rs1 rd : RegIdx} {imm : BitVec 12} (hrange : s.inRange (s.ea rs1 imm) = true)
  (hrd : rd ≠ 0#5)
include hrange hrd

theorem lw_after_sw (hst : exec (.sw rs2 rs1 imm) s = .next t) (hld : exec (.lw rd rs1 imm) t = .next u) :
    u.readReg rd = s.readReg rs2 := by
  have hea := ea_after_store sw_stores hst
  cases hst
  cases hld
  rw [State.readReg_writeReg_self, if_neg hrd, hea]
  exact State.readWord_writeWord_self hrange _

theorem lbu_after_sb (hst : exec (.sb rs2 rs1 imm) s = .next t) (hld : exec (.lbu rd rs1 imm) t = .next u) :
    (u.readReg rd).toNat = (s.readReg rs2).toNat % 2 ^ 8 := by
  have hea := ea_after_store sb_stores hst
  cases hst
  cases hld
  rw [State.readReg_writeReg_self, if_neg hrd, hea, zext_toNat _ (by decide), State.memRead1_memWrite1,
    if_pos ⟨hrange, rfl⟩]
  exact bits_zero_toNat _ 8

theorem lhu_after_sh (hlane : lane (s.ea rs1 imm) ≠ 3) (hst : exec (.sh rs2 rs1 imm) s = .next t)
    (hld : exec (.lhu rd rs1 imm) t = .next u) : (u.readReg rd).toNat = (s.readReg rs2).toNat % 2 ^ 16 := by
  have hbytes := State.memRead1_memWrite2 (memWrite2_of_exec_sh rs2 hst)
  simp only [same_place_iff, next_place_iff] at hbytes
  have hnext : s.ea rs1 imm + 1#32 ≠ s.ea rs1 imm := by
    intro e
    have hl := (next_in_word hlane).2
    rw [e] at hl
    omega
  have hlow : t.memRead1 (s.ea rs1 imm) = byteLane (s.readReg rs2) 0 := by
    rw [hbytes, if_pos ⟨hrange, rfl⟩]
  have hhigh : t.memRead1 (s.ea rs1 imm + 1#32) = byteLane (s.readReg rs2) 1 := by
    rw [hbytes, if_neg fun e => hnext e.2, if_pos ⟨hrange, hlane, rfl⟩]
  rw [exec_lhu, loadHalf, ea_after_store sh_stores hst, memRead2_of_lane hlane, hlow, hhigh] at hld
  cases hld
  rw [State.readReg_writeReg_self, if_neg hrd, zext_toNat _ (by decide)]
  exact (congrArg BitVec.toNat (bits_append_bits _ 0)).trans (bits_zero_toNat _ 16)

end

/-- Settles O22: the mixed-width view from the lanes of the word written, and the three round trips. -/
theorem loadsReturnWhatStoresWrote : Obligations.LoadsReturnWhatStoresWrote := by
  refine ⟨fun s a v hrange ha => ⟨fun k hk => memRead1_memWrite4 hrange ha v hk, ?low, ?high⟩,
    fun s t u rs2 rs1 rd imm => lw_after_sw, fun s t u rs2 rs1 rd imm => lbu_after_sb,
    fun s t u rs2 rs1 rd imm hrange hlane hrd => lhu_after_sh hrange hrd hlane⟩
  case low => simpa using memRead2_memWrite4 hrange ha v (k := 0) (by decide)
  case high => exact memRead2_memWrite4 hrange ha v (k := 2) (by decide)

/-- Settles O54: the fetch reads the same word as a load at the address stored to. -/
theorem storeIsSeenByTheNextFetch : Obligations.StoreIsSeenByTheNextFetch := by
  intro s t rs2 rs1 imm p hrange hst hp
  rw [exec_sw] at hst
  cases hst
  have hlt : wordIndex p < s.cfg.memWords := by
    rw [hp]
    exact of_decide_eq_true hrange
  rw [fetch_of_lt (by simpa [State.memWrite4] using hlt)]
  refine congrArg some ?_
  rw [State.readWord_index _ hp]
  exact State.readWord_writeWord_self hrange _

end Sys2Proof.Machine
end

section
/-! PROOFS. 41_alu_register.md: the results of the register-register ALU instructions (R121 to R131). -/

namespace Sys2Proof.Machine

/-- The wrapped difference read unsigned (41_alu_register.md R131). -/
theorem sub_toNat_emod (a b : Word) : ((a - b).toNat : Int) = (a.toNat - b.toNat : Int) % 2 ^ 32 := by
  have ha := a.isLt
  have hb := b.isLt
  rw [BitVec.toNat_sub]
  omega

theorem shiftLeft_toNat (a : Word) (n : Nat) : (a <<< n).toNat = a.toNat * 2 ^ n % 2 ^ 32 := by
  rw [BitVec.toNat_shiftLeft, Nat.shiftLeft_eq]

theorem ushiftRight_toNat (a : Word) (n : Nat) : (a >>> n).toNat = a.toNat / 2 ^ n := by
  rw [BitVec.toNat_ushiftRight, Nat.shiftRight_eq_div_pow]

theorem sshiftRight_toInt (a : Word) (n : Nat) : (a.sshiftRight n).toInt = a.toInt / 2 ^ n := by
  rw [BitVec.toInt_sshiftRight, Int.shiftRight_eq_div_pow]
  norm_cast

/-- Settles O5: the sum and the difference in both readings. -/
theorem addAndSubWrapInBothReadings : Obligations.AddAndSubWrapInBothReadings :=
  fun s rd rs1 rs2 =>
    ⟨⟨_, _, add_writesResult s rd rs1 rs2, setsOnlyRegister_writeReg .., BitVec.toNat_add .., BitVec.toInt_add ..⟩,
      ⟨_, _, sub_writesResult s rd rs1 rs2, setsOnlyRegister_writeReg .., sub_toNat_emod .., BitVec.toInt_sub ..⟩⟩

/-- Settles O6: each bit of the result. -/
theorem bitwiseRegisterResults : Obligations.BitwiseRegisterResults :=
  fun s rd rs1 rs2 =>
    ⟨⟨_, _, and_writesResult s rd rs1 rs2, setsOnlyRegister_writeReg .., fun _ => BitVec.getLsbD_and⟩,
      ⟨_, _, or_writesResult s rd rs1 rs2, setsOnlyRegister_writeReg .., fun _ => BitVec.getLsbD_or⟩,
      ⟨_, _, xor_writesResult s rd rs1 rs2, setsOnlyRegister_writeReg .., fun _ => BitVec.getLsbD_xor⟩⟩

/-- Settles O7: the shifts as multiplication and division. -/
theorem registerShiftsUseLowFiveBits : Obligations.RegisterShiftsUseLowFiveBits :=
  fun s rd rs1 rs2 =>
    ⟨⟨_, _, sll_writesResult s rd rs1 rs2, setsOnlyRegister_writeReg .., shiftLeft_toNat ..⟩,
      ⟨_, _, srl_writesResult s rd rs1 rs2, setsOnlyRegister_writeReg .., ushiftRight_toNat ..⟩,
      ⟨_, _, sra_writesResult s rd rs1 rs2, setsOnlyRegister_writeReg .., sshiftRight_toInt ..⟩⟩

/-- Settles O8: the comparators' results. -/
theorem registerComparesSetOneOrZero : Obligations.RegisterComparesSetOneOrZero :=
  fun s rd rs1 rs2 =>
    ⟨⟨_, slt_writesResult s rd rs1 rs2, setsOnlyRegister_writeReg ..⟩,
      ⟨_, sltu_writesResult s rd rs1 rs2, setsOnlyRegister_writeReg ..⟩⟩

end Sys2Proof.Machine
end

section
/-! PROOFS. 42_alu_immediate.md: the register-immediate ALU instructions (R141 to R149). -/

namespace Sys2Proof.Machine

/-- Bit `k` of a sign-extended 12-bit field is its bit `min k 11` (00_scope.md R12). -/
theorem sext_getLsbD_min (imm : BitVec 12) {k : Nat} (hk : k < 32) : (sext imm).getLsbD k = imm.getLsbD (min k 11) := by
  rw [sext_getLsbD imm hk]
  split
  case isTrue h => rw [Nat.min_eq_left (by omega)]
  case isFalse h => rw [Nat.min_eq_right (by omega)]

/-- The unsigned value of a sign-extended 12-bit field (42_alu_immediate.md R146). -/
theorem sext_toNat (imm : BitVec 12) :
    (sext imm).toNat = if imm.toNat < 2048 then imm.toNat else imm.toNat + (2 ^ 32 - 4096) := by
  have hsigned := sext_toInt imm (by decide)
  have himm := imm.isLt
  have hsext := (sext imm).isLt
  rw [BitVec.toInt_eq_toNat_cond, BitVec.toInt_eq_toNat_cond] at hsigned
  split at hsigned <;> split at hsigned <;> split <;> omega

/-! ## What `exec` answers -/

section exec
variable (s : State) (rd rs1 : RegIdx) (imm : BitVec 12) (shamt : BitVec 5)

theorem exec_addi : exec (.addi rd rs1 imm) s = .next (s.writeReg rd (s.readReg rs1 + sext imm)) := rfl

theorem exec_andi : exec (.andi rd rs1 imm) s = .next (s.writeReg rd (s.readReg rs1 &&& sext imm)) := rfl

theorem exec_ori : exec (.ori rd rs1 imm) s = .next (s.writeReg rd (s.readReg rs1 ||| sext imm)) := rfl

theorem exec_xori : exec (.xori rd rs1 imm) s = .next (s.writeReg rd (s.readReg rs1 ^^^ sext imm)) := rfl

theorem exec_slli : exec (.slli rd rs1 shamt) s = .next (s.writeReg rd (s.readReg rs1 <<< shamt.toNat)) := rfl

theorem exec_srli : exec (.srli rd rs1 shamt) s = .next (s.writeReg rd (s.readReg rs1 >>> shamt.toNat)) := rfl

theorem exec_srai : exec (.srai rd rs1 shamt) s = .next (s.writeReg rd ((s.readReg rs1).sshiftRight shamt.toNat)) := rfl

/-- SLTI compares with the field as a signed value (42_alu_immediate.md R145). -/
theorem exec_slti : exec (.slti rd rs1 imm) s =
    .next (s.writeReg rd (if (s.readReg rs1).toInt < imm.toInt then 1#32 else 0#32)) := by
  rw [exec, execSlti, opImm, ltSigned, boolWord_decide, sext_toInt _ (by decide)]

/-- SLTIU compares with the field as the configuration extends it (42_alu_immediate.md R146). -/
theorem exec_sltiu : exec (.sltiu rd rs1 imm) s =
    .next (s.writeReg rd (if (s.readReg rs1).toNat < (sltiuImm s.cfg imm).toNat then 1#32 else 0#32)) := by
  rw [exec, execSltiu, opImm, ltUnsigned, boolWord_decide]

end exec

/-- Settles O9: the signed sum, and the bits of the field sign-extended. -/
theorem immediateArithmeticSignExtends : Obligations.ImmediateArithmeticSignExtends := by
  refine fun s rd rs1 imm => ⟨⟨_, _, exec_addi .., setsOnlyRegister_writeReg .., ?addi⟩,
    ⟨_, _, exec_andi .., setsOnlyRegister_writeReg .., fun k hk => ?andi⟩,
    ⟨_, _, exec_ori .., setsOnlyRegister_writeReg .., fun k hk => ?ori⟩,
    ⟨_, _, exec_xori .., setsOnlyRegister_writeReg .., fun k hk => ?xori⟩⟩
  case addi => rw [BitVec.toInt_add, sext_toInt _ (by decide)]
  case andi => rw [BitVec.getLsbD_and, sext_getLsbD_min imm hk]
  case ori => rw [BitVec.getLsbD_or, sext_getLsbD_min imm hk]
  case xori => rw [BitVec.getLsbD_xor, sext_getLsbD_min imm hk]

/-- Settles O10: SLTI's comparison, and SLTIU's with the field as each configuration extends it. -/
theorem immediateComparesFollowConfiguration : Obligations.ImmediateComparesFollowConfiguration := by
  refine fun s rd rs1 imm => ⟨⟨_, exec_slti .., setsOnlyRegister_writeReg ..⟩, fun hz => ?zero, fun hs => ?sign⟩ <;>
    rw [exec_sltiu]
  case zero =>
    rw [sltiuImm, hz, zext_toNat _ (by decide)]
    exact ⟨_, rfl, setsOnlyRegister_writeReg ..⟩
  case sign =>
    rw [sltiuImm, hs, sext_toNat]
    exact ⟨_, rfl, setsOnlyRegister_writeReg ..⟩

/-- Settles O11: the shifts as multiplication and division. -/
theorem immediateShiftResults : Obligations.ImmediateShiftResults :=
  fun s rd rs1 shamt =>
    ⟨⟨_, _, exec_slli s rd rs1 shamt, setsOnlyRegister_writeReg .., shiftLeft_toNat ..⟩,
      ⟨_, _, exec_srli s rd rs1 shamt, setsOnlyRegister_writeReg .., ushiftRight_toNat ..⟩,
      ⟨_, _, exec_srai s rd rs1 shamt, setsOnlyRegister_writeReg .., sshiftRight_toInt ..⟩⟩

end Sys2Proof.Machine
end

section
/-! PROOFS. 44_control_transfer.md and 45_upper_immediate.md: JAL and JALR (R187, R188), LUI and AUIPC (R200, R201). -/

namespace Sys2Proof.Machine

/-- Settles O24: a redirect with a link, to a signed sum. -/
theorem jalJumpsAndLinks : Obligations.JalJumpsAndLinks := by
  refine fun s rd off => ⟨_, s.pcTarget off, rfl, jumpsAndLinks_jump .., ?_⟩
  rw [State.pcTarget, BitVec.toInt_add, sext_toInt _ (by decide)]

/-- The unsigned reading of a word is the signed one modulo 2^32. -/
theorem toNat_eq_toInt_emod (v : Word) : (v.toNat : Int) = v.toInt % 2 ^ 32 := by
  have hv := v.isLt
  rw [BitVec.toInt_eq_toNat_cond]
  split <;> omega

/-- Base plus signed displacement, read unsigned (44_control_transfer.md R188). -/
theorem ea_toNat (s : State) (rs1 : RegIdx) (imm : BitVec 12) :
    ((s.ea rs1 imm).toNat : Int) = ((s.readReg rs1).toInt + imm.toInt) % 2 ^ 32 := by
  rw [toNat_eq_toInt_emod, ea_toInt]
  exact Int.bmod_emod

/-- Clearing bit 0 makes a word even, rounding down (44_control_transfer.md R188). -/
theorem clearBit0_toNat (v : Word) : (v &&& 0xFFFFFFFE#32).toNat = v.toNat - v.toNat % 2 := by
  have hv := v.isLt
  have hshift : v &&& 0xFFFFFFFE#32 = (v >>> 1) <<< 1 := by
    refine word_ext fun i hi => ?_
    interval_cases i <;> simp [-BitVec.getLsbD_eq_getElem]
  rw [hshift, shiftLeft_toNat, ushiftRight_toNat]
  omega

/-- Settles O25: the link of a redirect, the target under each policy. -/
theorem jalrUsesTheOldBaseAndThePolicy : Obligations.JalrUsesTheOldBaseAndThePolicy := by
  intro s rd rs1 imm sum
  have hsum : ((s.ea rs1 imm).toNat : Int) = sum % 2 ^ 32 := ea_toNat s rs1 imm
  refine ⟨_, s.jalrTarget rs1 imm, rfl, jumpsAndLinks_jump .., fun hclear => ?even, fun hkeep => ?plain⟩
  case even =>
    have htarget : s.jalrTarget rs1 imm = s.ea rs1 imm &&& 0xFFFFFFFE#32 := if_pos hclear
    rw [htarget, clearBit0_toNat]
    omega
  case plain =>
    have htarget : s.jalrTarget rs1 imm = s.ea rs1 imm := if_neg (Bool.eq_false_iff.mp hkeep)
    rw [htarget, hsum]

/-- The U immediate as used is the field times 4096 (30_encoding.md R92). -/
theorem upperImm_toNat (imm : BitVec 20) : (upperImm imm).toNat = imm.toNat * 4096 := by
  rw [upperImm, BitVec.toNat_append, BitVec.toNat_zero, Nat.or_zero, Nat.shiftLeft_eq]

/-- Settles O26: the shifted field, and its sum with `pc`. -/
theorem upperImmediateResults : Obligations.UpperImmediateResults := by
  refine fun s rd imm => ⟨⟨_, _, exec_lui rd imm s, setsOnlyRegister_writeReg .., upperImm_toNat imm⟩,
    ⟨_, _, exec_auipc rd imm s, setsOnlyRegister_writeReg .., ?_⟩⟩
  rw [BitVec.toNat_add, upperImm_toNat]

end Sys2Proof.Machine
end

section
/-! PROOFS. 46_system.md: FENCE, ECALL and EBREAK (R210 to R212). -/

namespace Sys2Proof.Machine

/-! ## What `exec` answers -/

section exec
variable (rd rs1 : RegIdx) (imm : BitVec 12) (s : State)

theorem exec_fence : exec (.fence rd rs1 imm) s = .next s := rfl

theorem exec_ebreak : exec (.ebreak rd rs1) s = .next { s with stepMode := !s.stepMode } := rfl

variable {s}

theorem exec_ecall_halt (h : s.cfg.ecallAction = .halt) : exec (.ecall rd rs1) s = .next (s.halt .ecall) := by
  rw [exec, execEcall, h]

theorem exec_ecall_nop (h : s.cfg.ecallAction = .nop) : exec (.ecall rd rs1) s = .next s := by
  rw [exec, execEcall, h]

end exec

/-! ## The step -/

/-- Settles O28: FENCE has no effect of its own, so its step is the retirement alone. -/
theorem fenceChangesOnlyPc : Obligations.FenceChangesOnlyPc := by
  refine ⟨exec_fence, fun w s h0 h3 hfree hf => ?_⟩
  have hd : decode w = .hit ((Fields.ofWord w).instr .fence) := decode_of_fields .fence h0 (fun _ => h3) nofun nofun
  refine ⟨_, rfl, hd, ?_⟩
  rw [step_free hfree, coreStep_hit hf hd (exec_fence ..), State.retire_eq, if_pos ⟨hfree.1, rfl⟩]
  rfl

/-- Settles O29: the two actions, each retired. -/
theorem ecallFollowsItsAction : Obligations.EcallFollowsItsAction := by
  refine ⟨fun rd rs1 s => ⟨exec_ecall_halt rd rs1, exec_ecall_nop rd rs1⟩, fun w s h0 h3 h12 hfree hf => ?_⟩
  have hd : decode w = .hit ((Fields.ofWord w).instr .ecall) :=
    decode_of_fields .ecall h0 (fun _ => h3) nofun fun _ => h12
  refine ⟨_, rfl, hd, fun ha => ?halt, fun ha => ?nop⟩ <;> rw [step_free hfree]
  case halt =>
    rw [coreStep_hit hf hd (exec_ecall_halt _ _ ha), State.retire_eq, if_neg (nomatch ·.1)]
    rfl
  case nop =>
    rw [coreStep_hit hf hd (exec_ecall_nop _ _ ha), State.retire_eq, if_pos ⟨hfree.1, rfl⟩]
    rfl

/-- Settles O30: the toggled step mode of a free core, retired. -/
theorem ebreakTogglesStepMode : Obligations.EbreakTogglesStepMode := by
  refine ⟨exec_ebreak, fun w s h0 h3 h12 hfree hf => ?_⟩
  have hd : decode w = .hit ((Fields.ofWord w).instr .ebreak) :=
    decode_of_fields .ebreak h0 (fun _ => h3) nofun fun _ => h12
  refine ⟨_, rfl, hd, ?_⟩
  rw [step_free hfree, coreStep_hit hf hd (exec_ebreak ..), State.retire_eq, if_pos ⟨hfree.1, rfl⟩]
  simp only [State.beginStep, hfree.2, Bool.not_false]

end Sys2Proof.Machine
end

section
/-! PROOFS. 10_state.md R22: the registers an instruction writes and reads; 60_exceptions.md R231: the instructions that
have a step. -/

namespace Sys2Proof.Machine

/-! ## Writes -/

/-- Settles O2: each effect an instruction can have writes the register of the table or none. -/
theorem instructionWritesAtMostItsRegister : Obligations.InstructionWritesAtMostItsRegister := by
  intro i s t h r hr
  cases exec_effect h with
  | nothing | redirect | halts | toggles => rfl
  | store a w => exact State.readReg_writeWord s a w r
  | register rd v hw => exact State.readReg_writeReg_ne s v fun e => hr (e ▸ hw)
  | link rd v l _ hw => exact State.readReg_writeReg_ne (s.jump v) l fun e => hr (e ▸ hw)

/-! ## Every instruction runs -/

/-- A branch always has a step (44_control_transfer.md R180). -/
theorem branch_next (cond : Word → Word → Bool) (rs1 rs2 : RegIdx) (off : BitVec 13) (s : State) :
    ∃ t, branch cond rs1 rs2 off s = .next t := by
  unfold branch
  split <;> exact ⟨_, rfl⟩

/-- ECALL has a step under both actions (46_system.md R211). -/
theorem exec_ecall_next (rd rs1 : RegIdx) (s : State) : ∃ t, exec (.ecall rd rs1) s = .next t := by
  cases ha : s.cfg.ecallAction
  · exact ⟨_, exec_ecall_halt rd rs1 ha⟩
  · exact ⟨_, exec_ecall_nop rd rs1 ha⟩

/-- An instruction has a step but for the halfword access `STUCK` gives none (60_exceptions.md R231,
92_eei_decisions.md D12). -/
theorem exec_next {i : Instr} {s : State} (h : ∀ a, halfwordAddress i s = some a → ¬ HalfwordStuck s a) :
    ∃ t, exec i s = .next t := by
  cases i with
  | beq | bne | blt | bge | bltu | bgeu =>
    simp only [exec, execBeq, execBne, execBlt, execBge, execBltu, execBgeu]
    exact branch_next ..
  | lh rd => exact ⟨_, loadHalf_next rd (h _ rfl) sext⟩
  | lhu rd => exact ⟨_, loadHalf_next rd (h _ rfl) zext⟩
  | sh rs2 =>
    obtain ⟨t, ht⟩ := memWrite2_ok (h _ rfl) (s.readReg rs2)
    exact ⟨t, exec_sh_next rs2 ht⟩
  | ecall rd rs1 => exact exec_ecall_next rd rs1 s
  | _ => exact ⟨_, rfl⟩

/-- The stuck halfword access is the fault `halfwordStuck` (20_memory.md R56, R61). -/
theorem exec_stuck {i : Instr} {s : State} {a : Word} (ha : halfwordAddress i s = some a) (h : HalfwordStuck s a) :
    exec i s = .fault .halfwordStuck := by
  cases i with
  | lh rd => cases ha; exact loadHalf_stuck rd h sext
  | lhu rd => cases ha; exact loadHalf_stuck rd h zext
  | sh rs2 => cases ha; exact exec_sh_stuck rs2 h
  | _ => cases ha

/-- Settles O47: the stuck access and everything else. -/
theorem everyInstructionRunsUnlessStuck : Obligations.EveryInstructionRunsUnlessStuck :=
  fun _ _ => ⟨fun h => exec_next fun a ha hs => h ⟨a, ha, hs⟩, fun ⟨_, ha, h⟩ => exec_stuck ha h⟩

/-! ## Reads -/

/-- The state with another register file. -/
def State.withRegs (s : State) (other : Vector Word 32) : State := { s with regs := other }

/-- Two outcomes of an instruction that differ only in registers it does not write, or are the same fault. -/
def AgreeButRegs (i : Instr) (p q : Host.Outcome State Fault Refusal) : Prop :=
  (∃ t u : State, p = .next t ∧ q = .next u ∧ u = { t with regs := u.regs } ∧
      ∀ r : RegIdx, i.writes = some r → u.readReg r = t.readReg r)
    ∨ ∃ f : Fault, p = .fault f ∧ q = .fault f

/-! ### The state operations under another register file -/

section withRegs
variable (s : State) (other : Vector Word 32)

theorem writeReg_withRegs (rd : RegIdx) (v : Word) :
    (s.withRegs other).writeReg rd v = (s.writeReg rd v).withRegs ((s.withRegs other).writeReg rd v).regs := by
  unfold State.writeReg
  split <;> rfl

theorem writeWord_withRegs (a w : Word) :
    (s.withRegs other).writeWord a w = (s.writeWord a w).withRegs other := by
  have hin : (s.withRegs other).inRange a = s.inRange a := rfl
  rw [State.writeWord, State.writeWord, hin]
  split <;> rfl

theorem memWrite1_withRegs (a v : Word) :
    (s.withRegs other).memWrite1 a v = (s.memWrite1 a v).withRegs other := writeWord_withRegs ..

theorem memWrite2_withRegs (a v : Word) :
    (s.withRegs other).memWrite2 a v = (s.memWrite2 a v).map fun t => t.withRegs other := by
  have hin : (s.withRegs other).inRange a = s.inRange a := rfl
  have hcfg : (s.withRegs other).cfg = s.cfg := rfl
  have hread : (s.withRegs other).readWord a = s.readWord a := rfl
  rw [State.memWrite2_eq, State.memWrite2_eq, hin, hcfg, hread, writeWord_withRegs]
  split <;> rfl

variable {s other}

theorem ea_withRegs {rs1 : RegIdx} (h1 : (s.withRegs other).readReg rs1 = s.readReg rs1) (imm : BitVec 12) :
    (s.withRegs other).ea rs1 imm = s.ea rs1 imm := by
  rw [State.ea, State.ea, h1]

theorem jalrTarget_withRegs {rs1 : RegIdx} (h1 : (s.withRegs other).readReg rs1 = s.readReg rs1) (imm : BitVec 12) :
    (s.withRegs other).jalrTarget rs1 imm = s.jalrTarget rs1 imm := by
  rw [State.jalrTarget, State.jalrTarget, h1]
  rfl

end withRegs

/-! ### The shapes of instructions under another register file -/

section agree
variable {i : Instr} (s : State) (other : Vector Word 32)

/-- An instruction that writes no register leaves the two register files as they were. -/
theorem agree_noWrite (hw : i.writes = none) : AgreeButRegs i (.next s) (.next (s.withRegs other)) :=
  .inl ⟨_, _, rfl, rfl, rfl, fun r hr => by rw [hw] at hr; cases hr⟩

/-- An instruction that writes one value to its register makes the two agree there. -/
theorem agree_writeReg {rd : RegIdx} (hw : i.writes = some rd) (v : Word) :
    AgreeButRegs i (.next (s.writeReg rd v)) (.next ((s.withRegs other).writeReg rd v)) := by
  refine .inl ⟨_, _, rfl, rfl, writeReg_withRegs s other rd v, fun r hr => ?_⟩
  obtain rfl := Option.some.inj (hw.symm.trans hr)
  rw [State.readReg_writeReg_self, State.readReg_writeReg_self]

variable {s other} {rs1 rs2 rd : RegIdx} {imm : BitVec 12} {off : BitVec 13}
  (h1 : (s.withRegs other).readReg rs1 = s.readReg rs1)
include h1

theorem agree_opImm {f : Word → Word} (hw : i.writes = some rd) :
    AgreeButRegs i (opImm f rd rs1 s) (opImm f rd rs1 (s.withRegs other)) := by
  rw [opImm, opImm, h1]
  exact agree_writeReg s other hw _

theorem agree_loadHalf {f : Half → Word} (hw : i.writes = some rd) :
    AgreeButRegs i (loadHalf f rd rs1 imm s) (loadHalf f rd rs1 imm (s.withRegs other)) := by
  have hread : ∀ a, (s.withRegs other).memRead2 a = s.memRead2 a := fun _ => rfl
  rw [loadHalf, loadHalf, ea_withRegs h1, hread]
  cases s.memRead2 (s.ea rs1 imm) with
  | ok h => exact agree_writeReg s other hw _
  | error e => exact .inr ⟨e, rfl, rfl⟩

variable (h2 : (s.withRegs other).readReg rs2 = s.readReg rs2)
include h2

theorem agree_opReg {f : Word → Word → Word} (hw : i.writes = some rd) :
    AgreeButRegs i (opReg f rd rs1 rs2 s) (opReg f rd rs1 rs2 (s.withRegs other)) := by
  rw [opReg, opReg, h1, h2]
  exact agree_writeReg s other hw _

theorem agree_branch {cond : Word → Word → Bool} (hw : i.writes = none) :
    AgreeButRegs i (branch cond rs1 rs2 off s) (branch cond rs1 rs2 off (s.withRegs other)) := by
  rw [branch, branch, h1, h2]
  split
  · exact agree_noWrite (s.jump _) other hw
  · exact agree_noWrite s other hw

theorem agree_sh (hw : i.writes = none) :
    AgreeButRegs i (execSh rs2 rs1 imm s) (execSh rs2 rs1 imm (s.withRegs other)) := by
  rw [execSh, execSh, ea_withRegs h1, h2, memWrite2_withRegs]
  cases s.memWrite2 (s.ea rs1 imm) (s.readReg rs2) with
  | ok t => exact agree_noWrite t other hw
  | error e => exact .inr ⟨e, rfl, rfl⟩

end agree

/-- An instruction's outcome depends on no register but the ones it reads, shape by shape (10_state.md R22). -/
theorem exec_agree {i : Instr} {s : State} {other : Vector Word 32}
    (h : ∀ r ∈ i.reads, (s.withRegs other).readReg r = s.readReg r) :
    AgreeButRegs i (exec i s) (exec i (s.withRegs other)) := by
  cases i with
  | lui | auipc => exact agree_writeReg s other rfl _
  | jal => exact agree_writeReg (s.jump _) other rfl _
  | fence => exact agree_noWrite s other rfl
  | ebreak => exact agree_noWrite { s with stepMode := !s.stepMode } other rfl
  | ecall rd rs1 =>
    cases ha : s.cfg.ecallAction with
    | halt =>
      rw [exec_ecall_halt rd rs1 ha, exec_ecall_halt rd rs1 (s := s.withRegs other) ha]
      exact agree_noWrite (s.halt _) other rfl
    | nop =>
      rw [exec_ecall_nop rd rs1 ha, exec_ecall_nop rd rs1 (s := s.withRegs other) ha]
      exact agree_noWrite s other rfl
  | jalr rd rs1 imm =>
    rw [exec, exec, execJalr, execJalr, jalrTarget_withRegs (h rs1 List.mem_cons_self)]
    exact agree_writeReg (s.jump _) other rfl _
  | lb rd rs1 imm | lw rd rs1 imm | lbu rd rs1 imm =>
    simp only [exec_lb, exec_lw, exec_lbu, ea_withRegs (h rs1 List.mem_cons_self)]
    exact agree_writeReg s other rfl _
  | lh rd rs1 imm | lhu rd rs1 imm =>
    simp only [exec_lh, exec_lhu]
    exact agree_loadHalf (h rs1 List.mem_cons_self) rfl
  | addi rd rs1 | slti rd rs1 | sltiu rd rs1 | xori rd rs1 | ori rd rs1 | andi rd rs1 | slli rd rs1 | srli rd rs1
  | srai rd rs1 =>
    simp only [exec, execAddi, execSlti, execSltiu, execXori, execOri, execAndi, execSlli, execSrli, execSrai]
    exact agree_opImm (h rs1 List.mem_cons_self) rfl
  | add rd rs1 rs2 | sub rd rs1 rs2 | sll rd rs1 rs2 | slt rd rs1 rs2 | sltu rd rs1 rs2 | xor rd rs1 rs2
  | srl rd rs1 rs2 | sra rd rs1 rs2 | or rd rs1 rs2 | and rd rs1 rs2 =>
    simp only [exec, execAdd, execSub, execSll, execSlt, execSltu, execXor, execSrl, execSra, execOr, execAnd]
    exact agree_opReg (h rs1 List.mem_cons_self) (h rs2 (List.mem_cons_of_mem _ List.mem_cons_self)) rfl
  | beq rs1 rs2 | bne rs1 rs2 | blt rs1 rs2 | bge rs1 rs2 | bltu rs1 rs2 | bgeu rs1 rs2 =>
    simp only [exec, execBeq, execBne, execBlt, execBge, execBltu, execBgeu]
    exact agree_branch (h rs1 List.mem_cons_self) (h rs2 (List.mem_cons_of_mem _ List.mem_cons_self)) rfl
  | sb rs2 rs1 imm | sw rs2 rs1 imm =>
    simp only [exec_sb, exec_sw, State.memWrite4, ea_withRegs (h rs1 List.mem_cons_self),
      h rs2 (List.mem_cons_of_mem _ List.mem_cons_self), memWrite1_withRegs, writeWord_withRegs]
    exact agree_noWrite _ other rfl
  | sh rs2 rs1 => exact agree_sh (h rs1 List.mem_cons_self) (h rs2 (List.mem_cons_of_mem _ List.mem_cons_self)) rfl

/-- Settles O3: the statement for the state with the other register file. -/
theorem instructionReadsOnlyItsRegisters : Obligations.InstructionReadsOnlyItsRegisters :=
  fun _ _ _ h => exec_agree h

end Sys2Proof.Machine
end

section
/-! PROOFS. 10_state.md R30 and 60_exceptions.md section 1: the step clause by clause, and what it does to the control
state, the trace and the conditions. -/

namespace Sys2Proof.Machine

/-! ## The step, clause by clause -/

/-- No instruction is refused: it has a step or is stuck (60_exceptions.md R231). -/
theorem exec_ne_refused (i : Instr) (s : State) (r : Refusal) : exec i s ≠ .refused r := by
  by_cases h : ∃ a, halfwordAddress i s = some a ∧ HalfwordStuck s a
  · obtain ⟨a, ha, hs⟩ := h
    rw [exec_stuck ha hs]
    nofun
  · obtain ⟨t, ht⟩ := exec_next fun a ha hs => h ⟨a, ha, hs⟩
    rw [ht]
    nofun

/-- An instruction with no step gives the core none. -/
theorem coreStep_fault {s : State} {w : Word} {i : Instr} {f : Fault} (hf : s.fetch = some w) (hd : decode w = .hit i)
    (he : exec i s.beginStep = .fault f) : s.coreStep = .fault f := by
  unfold State.coreStep
  simp only [hf, hd, he]

/-- The end of an executed instruction as one update (10_state.md R30, R32). -/
theorem State.retire_eq_update (s : State) (i : Instr) :
    s.retire i = { s with missCount := 0, traceOut := s.traceOut ++ [i], redirect := false,
                          pc := if s.runState = .running ∧ s.redirect = false then s.pc + 4#32 else s.pc } := by
  rw [State.retire_eq]
  split <;> rfl

/-- Settles O37: the three ways of a core's own step. -/
theorem stepRunsTheDecodedInstruction : Obligations.StepRunsTheDecodedInstruction := by
  intro s hfree
  rw [step_free hfree]
  refine ⟨fun hout => ?outOfBounds, fun hin info hd => ?miss, fun hin i hd => ⟨fun u he => ?next, fun f he => ?fault,
    exec_ne_refused i _⟩⟩
  case outOfBounds => exact coreStep_outOfBounds (fetch_of_ge hout)
  case miss =>
    rw [coreStep_miss (fetch_of_lt hin) hd, State.miss_eq]
    rfl
  case next => rw [coreStep_hit (fetch_of_lt hin) hd he, State.retire_eq_update]
  case fault => exact coreStep_fault (fetch_of_lt hin) hd he

/-- A miss keeps `pc` exactly where it halts the core (60_exceptions.md R222). -/
theorem State.miss_pc (s : State) (info : MissInfo) : (s.miss info).pc =
    if 0 < s.cfg.missHaltLimit ∧ s.cfg.missHaltLimit ≤ s.missCount + 1 then s.pc else s.pc + 4#32 := by
  rw [State.miss_eq]
  split <;> rfl

/-- Settles O41: the fields of `State.miss`. -/
theorem missIsSkippedOrHaltsAtTheLimit : Obligations.MissIsSkippedOrHaltsAtTheLimit := by
  intro s w info hfree hf hd
  refine ⟨s.beginStep.miss info, by rw [step_free hfree, coreStep_miss hf hd], State.readReg_congr (State.miss_regs ..),
    State.miss_mem .., State.miss_traceOut .., State.miss_raised .., State.miss_missCount .., fun hlim => ?halts,
    fun hlim => ?skipped⟩
  case halts => exact ⟨(State.miss_runState ..).trans (if_pos hlim), (State.miss_pc ..).trans (if_pos hlim)⟩
  case skipped =>
    exact ⟨((State.miss_runState s.beginStep info).trans (if_neg hlim)).trans hfree.1,
      (State.miss_pc ..).trans (if_neg hlim)⟩

/-! ## What a core's own step does to each part of the control state -/

section coreStep
variable {s t : State} (h : s.coreStep = .next t)
include h

/-- The core's own step keeps the configuration, the debug bit and the host's queue (10_state.md R29). -/
theorem coreStep_keeps : t.cfg = s.cfg ∧ t.debugLog = s.debugLog ∧ t.hostQueue = s.hostQueue := by
  obtain ⟨-, rfl⟩ | ⟨w, info, -, -, rfl⟩ | ⟨w, i, u, -, -, he, rfl⟩ := coreStep_cases h
  · exact ⟨rfl, rfl, rfl⟩
  · exact ⟨State.miss_cfg .., State.miss_debugLog .., State.miss_hostQueue ..⟩
  · have hu := exec_keepsOutputs he
    exact ⟨(State.retire_cfg ..).trans hu.cfg, (State.retire_debugLog ..).trans hu.debugLog,
      (State.retire_hostQueue ..).trans hu.hostQueue⟩

/-- The core's own step emits the trace of the instruction it executes, and nothing else (60_exceptions.md R238). -/
theorem coreStep_traceOut : t.traceOut = s.traceOut ∨ ∃ i, FetchesInstr s i ∧ t.traceOut = s.traceOut ++ [i] := by
  obtain ⟨-, rfl⟩ | ⟨w, info, -, -, rfl⟩ | ⟨w, i, u, hf, hd, he, rfl⟩ := coreStep_cases h
  · exact .inl rfl
  · exact .inl (State.miss_traceOut ..)
  · refine .inr ⟨i, ⟨w, hf, hd⟩, ?_⟩
    rw [State.retire_traceOut, (exec_keepsOutputs he).traceOut, State.beginStep_traceOut]

/-- The core's own step raises at most one condition (60_exceptions.md R225). -/
theorem coreStep_raised : t.raised = s.raised ∨ ∃ c, t.raised = s.raised ++ [c] := by
  obtain ⟨-, rfl⟩ | ⟨w, info, -, -, rfl⟩ | ⟨w, i, u, -, -, he, rfl⟩ := coreStep_cases h
  · exact .inr ⟨_, rfl⟩
  · exact .inr ⟨_, State.miss_raised ..⟩
  · exact .inl ((State.retire_raised ..).trans (exec_keepsOutputs he).raised)

/-- The core's own step changes step mode only at an EBREAK, which toggles it (46_system.md R212). -/
theorem coreStep_stepMode : t.stepMode = s.stepMode ∨
    (∃ rd rs1, FetchesInstr s (.ebreak rd rs1)) ∧ t.stepMode = !s.stepMode := by
  obtain ⟨-, rfl⟩ | ⟨w, info, -, -, rfl⟩ | ⟨w, i, u, hf, hd, he, rfl⟩ := coreStep_cases h
  · exact .inl rfl
  · exact .inl (State.miss_stepMode ..)
  · rw [State.retire_stepMode]
    obtain hsame | ⟨⟨rd, rs1, rfl⟩, rfl⟩ := exec_stepMode he
    · exact .inl hsame
    · exact .inr ⟨⟨rd, rs1, w, hf, hd⟩, rfl⟩

/-- The core's own step counts a miss, and clears the count at an instruction (60_exceptions.md R222). -/
theorem coreStep_missCount : t.missCount = s.missCount ∨
    (∃ info, FetchesMiss s info) ∧ t.missCount = s.missCount + 1 ∨ (∃ i, FetchesInstr s i) ∧ t.missCount = 0 := by
  obtain ⟨-, rfl⟩ | ⟨w, info, hf, hd, rfl⟩ | ⟨w, i, u, hf, hd, -, rfl⟩ := coreStep_cases h
  · exact .inl rfl
  · exact .inr (.inl ⟨⟨info, w, hf, hd⟩, State.miss_missCount ..⟩)
  · exact .inr (.inr ⟨⟨i, w, hf, hd⟩, State.retire_missCount ..⟩)

/-- The core's own step changes the run state only by the three events that halt a core (10_state.md R26). -/
theorem coreStep_runState : t.runState = s.runState ∨
    s.cfg.memWords ≤ wordIndex s.pc ∧ t.runState = .halted .outOfBoundsFetch ∨
    (∃ rd rs1, FetchesInstr s (.ecall rd rs1)) ∧ s.cfg.ecallAction = .halt ∧ t.runState = .halted .ecall ∨
    (∃ info, FetchesMiss s info) ∧ 0 < s.cfg.missHaltLimit ∧ s.cfg.missHaltLimit ≤ s.missCount + 1 ∧
      t.runState = .halted .missLimit := by
  obtain ⟨hf, rfl⟩ | ⟨w, info, hf, hd, rfl⟩ | ⟨w, i, u, hf, hd, he, rfl⟩ := coreStep_cases h
  · exact .inr (.inl ⟨fetch_eq_none_iff.mp hf, rfl⟩)
  · have hrun := State.miss_runState s.beginStep info
    split at hrun
    case isTrue hlim => exact .inr (.inr (.inr ⟨⟨info, w, hf, hd⟩, hlim.1, hlim.2, hrun⟩))
    case isFalse => exact .inl hrun
  · rw [State.retire_runState]
    obtain hsame | ⟨⟨rd, rs1, rfl⟩, ha, rfl⟩ := exec_runState he
    · exact .inl hsame
    · exact .inr (.inr (.inl ⟨⟨rd, rs1, w, hf, hd⟩, ha, rfl⟩))

/-- A core's own step that halts it keeps `pc`, registers and memory (92_eei_decisions.md D29). -/
theorem coreStep_halts_keeps (hr : s.runState = .running) (ht : t.runState ≠ .running) :
    t.pc = s.pc ∧ t.regs = s.regs ∧ t.mem = s.mem := by
  obtain ⟨-, rfl⟩ | ⟨w, info, -, -, rfl⟩ | ⟨w, i, u, -, -, he, rfl⟩ := coreStep_cases h
  · exact ⟨rfl, rfl, rfl⟩
  · refine ⟨?_, State.miss_regs .., State.miss_mem ..⟩
    rw [State.miss_runState] at ht
    split at ht
    case isTrue hlim => exact (State.miss_pc ..).trans (if_pos hlim)
    case isFalse => exact absurd hr ht
  · rw [State.retire_runState] at ht
    obtain hsame | ⟨-, -, rfl⟩ := exec_runState he
    · exact absurd (hsame.trans hr) ht
    · exact ⟨State.retire_pc_halted _ i ht, State.retire_regs .., State.retire_mem ..⟩

end coreStep

/-! ## What a host command does to each part of the control state -/

section command
variable {s t : State} {c : HostCommand} (h : s.command c = .next t) (hc : c ≠ .step)
include h hc

/-- A command other than `step` keeps the configuration, the debug bit and the trace (60_exceptions.md R234 to
R237). -/
theorem command_keeps : t.cfg = s.cfg ∧ t.debugLog = s.debugLog ∧ t.traceOut = s.traceOut := by
  cases c with
  | step => exact absurd rfl hc
  | _ => cases h; exact ⟨rfl, rfl, rfl⟩

/-- Only a malformed command is raised (60_exceptions.md R237). -/
theorem command_raised : t.raised = s.raised ∨ ∃ d, t.raised = s.raised ++ [d] := by
  cases c with
  | step => exact absurd rfl hc
  | malformed => cases h; exact .inr ⟨_, rfl⟩
  | _ => cases h; exact .inl rfl

/-- Of the commands other than `step`, only `continue` changes step mode (60_exceptions.md R234). -/
theorem command_stepMode : t.stepMode = s.stepMode ∨ c = .continue ∧ t.stepMode = false := by
  cases c with
  | step => exact absurd rfl hc
  | reset | exit | dump | malformed => cases h; exact .inl rfl
  | _ => cases h; exact .inr ⟨rfl, rfl⟩

/-- Of the commands other than `step`, only `reset` changes the miss count (60_exceptions.md R235). -/
theorem command_missCount : t.missCount = s.missCount ∨ c = .reset ∧ t.missCount = 0 := by
  cases c with
  | step => exact absurd rfl hc
  | reset => cases h; exact .inr ⟨rfl, rfl⟩
  | _ => cases h; exact .inl rfl

/-- Of the commands other than `step`, only `exit` changes the run state, and nothing else (60_exceptions.md R236). -/
theorem command_runState : t.runState = s.runState ∨ c = .exit ∧ t = s.halt .exit := by
  cases c with
  | step => exact absurd rfl hc
  | exit => cases h; exact .inr ⟨rfl, rfl⟩
  | _ => cases h; exact .inl rfl

end command

/-! ## The trace -/

/-- Settles O42: of the events of a step only a core's own step emits, and that at an instruction. -/
theorem oneTraceStringPerExecutedInstruction : Obligations.OneTraceStringPerExecutedInstruction := by
  refine ⟨fun s t h => ?atMost, fun s t i hts ⟨w, hf, hd⟩ h => ?whenever⟩
  case atMost =>
    obtain ⟨r, -, rfl⟩ | ⟨hts, q, hcore⟩ | ⟨c, q, -, hc, hcmd⟩ := step_events h
    · exact .inl rfl
    · obtain hsame | ⟨i, hi, htrace⟩ := coreStep_traceOut hcore
      · exact .inl hsame
      · refine .inr ⟨hts, i, hi, htrace, ?_⟩
        rw [State.traceStrings, htrace, List.map_append]
        rfl
    · exact .inl (command_keeps hcmd hc).2.2
  case whenever =>
    obtain ⟨q, hq⟩ := step_takesStep hts
    obtain ⟨u, he, rfl⟩ := coreStep_hit_inv (s := { s with hostQueue := q }) hf hd (hq.symm.trans h)
    rw [State.retire_traceOut, (exec_keepsOutputs he).traceOut]
    rfl

/-! ## Halting -/

/-- A run from a halted state stays there (10_state.md R26, log 5). -/
theorem run_halted {s : State} {r : HaltReason} (h : s.runState = .halted r) (n : Nat) :
    Host.Core.run core n s = .next s := by
  induction n with
  | zero => rfl
  | succ n ih => exact (run_next (M := core) (step_halted h)).trans ih

/-- Settles O43: by induction on the number of steps. -/
theorem haltedIsTerminal : Obligations.HaltedIsTerminal := fun n _ _ h => run_halted h n

/-- Settles O44: a core's own step that halts keeps them, and so does `exit`. -/
theorem haltKeepsPcRegistersAndMemory : Obligations.HaltKeepsPcRegistersAndMemory := by
  intro s t hr h ht
  obtain ⟨r, -, rfl⟩ | ⟨-, q, hcore⟩ | ⟨c, q, -, hc, hcmd⟩ := step_events h
  · exact absurd hr ht
  · obtain ⟨hpc, hregs, hmem⟩ := coreStep_halts_keeps hcore hr ht
    exact ⟨hpc, State.readReg_congr hregs, hmem⟩
  · obtain hsame | ⟨-, rfl⟩ := command_runState hcmd hc
    · exact absurd (hsame.trans hr) ht
    · exact ⟨rfl, fun _ => rfl, rfl⟩

/-! ## Control state and conditions -/

/-- Settles O45: each part of the control state, for each event of a step. -/
theorem controlStateChangesOnlyByNamedEvents : Obligations.ControlStateChangesOnlyByNamedEvents := by
  intro s t h
  obtain ⟨r, -, rfl⟩ | ⟨hts, q, hcore⟩ | ⟨c, q, htc, hc, hcmd⟩ := step_events h
  case inl => exact ⟨rfl, rfl, fun e => absurd rfl e, fun e => absurd rfl e, fun e => absurd rfl e⟩
  case inr.inl =>
    obtain ⟨hcfg, hdebug, -⟩ := coreStep_keeps hcore
    refine ⟨hcfg, hdebug, fun hne => ?stepMode, fun hne => ?missCount, fun hne => ?runState⟩
    case stepMode =>
      obtain hsame | ⟨hebreak, -⟩ := coreStep_stepMode hcore
      · exact absurd hsame hne
      · exact .inl ⟨hts, hebreak⟩
    case missCount =>
      obtain hsame | ⟨hmiss, hcount⟩ | ⟨hinstr, hcount⟩ := coreStep_missCount hcore
      · exact absurd hsame hne
      · exact .inl ⟨hts, hmiss, hcount⟩
      · exact .inr (.inl ⟨hts, hinstr, hcount⟩)
    case runState =>
      obtain hsame | hout | hecall | hmiss := coreStep_runState hcore
      · exact absurd hsame hne
      · exact .inl ⟨hts, hout⟩
      · exact .inr (.inl ⟨hts, hecall⟩)
      · exact .inr (.inr (.inl ⟨hts, hmiss⟩))
  case inr.inr =>
    obtain ⟨hcfg, hdebug, -⟩ := command_keeps hcmd hc
    refine ⟨hcfg, hdebug, fun hne => ?stepMode, fun hne => ?missCount, fun hne => ?runState⟩
    case stepMode =>
      obtain hsame | ⟨rfl, hoff⟩ := command_stepMode hcmd hc
      · exact absurd hsame hne
      · exact .inr ⟨htc, hoff⟩
    case missCount =>
      obtain hsame | ⟨rfl, hcount⟩ := command_missCount hcmd hc
      · exact absurd hsame hne
      · exact .inr (.inr ⟨htc, hcount⟩)
    case runState =>
      obtain hsame | ⟨rfl, rfl⟩ := command_runState hcmd hc
      · exact absurd hsame hne
      · exact .inr (.inr (.inr ⟨htc, rfl⟩))

/-- Settles O46: each event of a step raises at most one condition, an instruction's own effect none. -/
theorem atMostOneConditionPerStep : Obligations.AtMostOneConditionPerStep := by
  refine ⟨fun s t h => ?step, fun s t w i hfree hf hd h => ?instruction, fun i s t h => (exec_keepsOutputs h).raised⟩
  case step =>
    obtain ⟨r, -, rfl⟩ | ⟨-, q, hcore⟩ | ⟨c, q, -, hc, hcmd⟩ := step_events h
    · exact .inl rfl
    · exact coreStep_raised (s := { s with hostQueue := q }) hcore
    · exact command_raised (s := { s with hostQueue := q }) hcmd hc
  case instruction =>
    rw [step_free hfree] at h
    obtain ⟨u, he, rfl⟩ := coreStep_hit_inv hf hd h
    exact (State.retire_raised ..).trans (exec_keepsOutputs he).raised

end Sys2Proof.Machine
end

section
/-! PROOFS. 60_exceptions.md section 3: the commands of the host (R232 to R237). -/

namespace Sys2Proof.Machine

/-- Settles O48: the suspended core with an empty queue. -/
theorem suspendedWithoutCommandHasNoStep : Obligations.SuspendedWithoutCommandHasNoStep :=
  fun _ => step_noCommand

/-- Settles O49: the command is the core's own step, which keeps step mode but at an EBREAK. -/
theorem hostStepMakesOneStep : Obligations.HostStepMakesOneStep := by
  intro s q hr hm hq
  have hstep : step s = ({ s with hostQueue := q } : State).coreStep := step_command hr hm hq
  refine ⟨hstep, fun u => step_free, fun t h => ?_⟩
  rw [hstep] at h
  refine ⟨(coreStep_keeps h).2.2, fun _ => ?_⟩
  obtain hsame | ⟨⟨rd, rs1, w, hf, hd⟩, htoggled⟩ := coreStep_stepMode h
  · exact .inl (hsame.trans hm)
  · exact .inr ⟨w, rd, rs1, hf, hd, htoggled.trans (congrArg not hm)⟩

/-- Settles O50: the command, and the one way a free core's step changes step mode. -/
theorem hostContinueFreesTheCore : Obligations.HostContinueFreesTheCore := by
  refine ⟨fun s q => step_command, fun s t hfree h ht => ?_⟩
  rw [step_free hfree] at h
  obtain hsame | ⟨⟨rd, rs1, w, hf, hd⟩, -⟩ := coreStep_stepMode h
  · rw [hsame, hfree.2] at ht
    cases ht
  · exact ⟨w, rd, rs1, hf, hd⟩

/-- Settles O51: the command leaves `State.hostReset`, whose register file is filled. -/
theorem hostResetKeepsMemory : Obligations.HostResetKeepsMemory := by
  intro s q hr hm hq
  refine ⟨_, step_command hr hm hq, State.readReg_zero _, fun r hne => ?_, rfl⟩
  rw [readReg_filledRegs (State.hostReset_regs _), if_neg hne]

/-- Settles O52: the command halts the core, and a halted core stays. -/
theorem hostExitHalts : Obligations.HostExitHalts := by
  intro s q hr hm hq
  have hstep : step s = .next { s with hostQueue := q, runState := .halted .exit } := step_command hr hm hq
  exact ⟨hstep, fun n => ⟨_, (run_next (M := core) hstep).trans (run_halted rfl n), rfl⟩⟩

/-! ## The words of a dump -/

theorem length_dumpWords (s : State) (addr : Word) (n : Nat) : (s.dumpWords addr n).length = n := by
  induction n generalizing addr with
  | zero => rfl
  | succ n ih => rw [State.dumpWords, List.length_cons, ih]

/-- Word `k` of a dump is the one at `addr + 4*k`, modulo 2^32 (60_exceptions.md R237). -/
theorem getElem?_dumpWords (s : State) (addr : Word) {n k : Nat} (hk : k < n) :
    (s.dumpWords addr n)[k]? = some (s.readWord (BitVec.ofNat 32 (addr.toNat + 4 * k))) := by
  induction n generalizing addr k with
  | zero => exact absurd hk (Nat.not_lt_zero k)
  | succ n ih =>
    cases k with
    | zero => simp [State.dumpWords]
    | succ k =>
      have haddr : BitVec.ofNat 32 ((addr + 4#32).toNat + 4 * k) = BitVec.ofNat 32 (addr.toNat + 4 * (k + 1)) := by
        refine BitVec.eq_of_toNat_eq ?_
        simp only [BitVec.toNat_ofNat, BitVec.toNat_add]
        omega
      rw [State.dumpWords, List.getElem?_cons_succ, ih _ (Nat.lt_of_succ_lt_succ hk), haddr]

/-- Settles O53: the two commands, and the words the dump gives. -/
theorem dumpAndMalformedChangeNoCoreState : Obligations.DumpAndMalformedChangeNoCoreState := by
  refine fun s q hr hm => ⟨fun count addr hq => ?dump, fun text hq => step_command hr hm hq⟩
  case dump =>
    exact ⟨({ s with hostQueue := q } : State).dumpWords addr count, step_command hr hm hq, length_dumpWords ..,
      fun _ hk => getElem?_dumpWords { s with hostQueue := q } addr hk⟩

end Sys2Proof.Machine
end
